-- ==== Sys2Proof/Word.lean ====
section
/-! DEFINITION. The words of STEPSEQ: the widths the spec gives to registers, ports and fields. -/

namespace Sys2Proof

/-- A 32-bit register or operand word (00_scope.md R8, W = 32). -/
abbrev Word := BitVec 32

/-- The command word on the port `cmd_word` (30_encoding.md R70, R72). -/
abbrev CommandWord := BitVec 36

/-- The field op = cmd_word[35:32] (30_encoding.md R72). -/
abbrev Opcode := BitVec 4

/-- One row of a waveform table, and the register `coil`: bit 0 is lead A, bit 3 is lead D, 1 is HIGH
(20_memory.md R51). -/
abbrev Row := BitVec 4

/-- The index of a row, `ctr[2:0]` (20_memory.md R60). -/
abbrev RowIndex := BitVec 3

/-- The contents of DRIVE_METHOD (10_state.md R23). -/
abbrev Method := BitVec 2

/-- The contents of rsp_status (10_state.md R34). -/
abbrev Status := BitVec 2

end Sys2Proof
end

