-- ==== Sys2Proof/Config.lean ====
section
/-! DEFINITION. The implementation parameters of 00_scope.md R8: the ones the spec fixes are constants, the ones it
leaves OPEN are the fields of `Config`, plain data that State carries and no step changes (log entry 3). -/

namespace Sys2Proof

/-- The parameters 00_scope.md R8 leaves OPEN (92_eei_decisions.md D12, D15, D20, D36). Which values are admissible
is `Config.Admissible` (70_reset_and_hazards.md R192). -/
structure Config where
  /-- P_TICKS_PER_MS: clock cycles per millisecond. -/
  ticksPerMs   : Nat
  /-- P_RESET_DELAY_MS: STEP_DELAY after reset. -/
  resetDelayMs : Nat
  /-- P_RESET_METHOD: DRIVE_METHOD after reset. -/
  resetMethod  : Nat
  /-- WAVE_ROWS[0..7], read for WAVE_DRIVE and for FULL_STEP. -/
  waveRows     : Vector Row 8
  /-- HALF_ROWS[0..7]. -/
  halfRows     : Vector Row 8
  /-- TMR_W: the width of the inter-step timer. -/
  tmrWidth     : Nat
  deriving DecidableEq, Repr

namespace Config

/-- STEPS_PER_QUARTER (00_scope.md R8, 41_conversion.md R132). -/
def stepsPerQuarter : Int := 512

/-- HALF_FACTOR (00_scope.md R8, 41_conversion.md R132). -/
def halfFactor : Int := 2

/-- The default of P_RESET_METHOD: HALF_STEP (00_scope.md R8). -/
def defaultResetMethod : Nat := 2

/-- FREE VALUE. The content of ROM words 24..31, the rows a read with method code 3 would give: "Their content is not
defined and not observable" (20_memory.md R62). Nothing constrains it. DESIGN CHOICE, safe (log entry 5). -/
opaque unusedRomRow : RowIndex → Row

/-- FREE VALUE. What the timer takes at a write while STEP_DELAY ≤ 0, where D·T − 1 is no value a timer holds
(10_state.md R32, whose R24 keeps 1 ≤ s32(STEP_DELAY) after a reset). Applied to STEP_DELAY and T. Nothing constrains it.
DESIGN CHOICE, safe (log entry 6). -/
opaque timerOfIllegalDelay : Word → Nat → Nat

/-- FREE VALUE. The counter of the next write where R103's ctr − 1 or ctr + 1 is no value of 32 bits: forward from ctr = 0,
in reverse from ctr = 2^32 − 1. "`ctr − 1` is never applied at ctr = 0" (40_motion.md R108), so the spec gives none. Applied
to `left`, which differs at every write of a run. Nothing constrains it. DESIGN CHOICE, safe (log entry 13). -/
opaque counterPastItsEnd : Word → Word

/-- The configuration of `Machine.State.reset`: the reference tables REF of 20_memory.md R56 (not normative there) and
the parameters of 95_test_vectors.md's conventions, T = 1 and P_RESET_DELAY_MS = 10, with the default P_RESET_METHOD and
the least TMR_W that R8 allows them. DESIGN CHOICE, unsafe (log entry 4): no statement about every state rests on it. -/
def reference : Config where
  ticksPerMs   := 1
  resetDelayMs := 10
  resetMethod  := defaultResetMethod
  waveRows     := #v[0x8, 0x4, 0x2, 0x1, 0x8, 0x4, 0x2, 0x1]
  halfRows     := #v[0x8, 0xC, 0x4, 0x6, 0x2, 0x3, 0x1, 0x9]
  tmrWidth     := 31

end Config

end Sys2Proof
end

