-- ==== Sys2Proof/Machine/Bits.lean ====
section
/-! DEFINITION. The notation of 00_scope.md R9 and R10: readings of bit patterns as integers and back, wrapping, division
toward zero, and the counting of 1 bits. -/

namespace Sys2Proof.Machine

/-- `s32(v)`: v as two's complement, in −2^31..2^31−1 (R10). -/
def s32 (v : Word) : Int := v.toInt

/-- `u32(v)`: v as unsigned, in 0..2^32−1 (R10). -/
def u32 (v : Word) : Nat := v.toNat

/-- `bits32(x)`: the two's-complement pattern of x (R10, for x in −2^31..2^31−1; outside, that of wrap32(x)). -/
def bits32 (x : Int) : Word := BitVec.ofInt 32 x

/-- `wrap32(x)`: the value in −2^31..2^31−1 congruent to x modulo 2^32 (R10). -/
def wrap32 (x : Int) : Int := x.bmod (2 ^ 32)

/-- `quot(a, b)`: integer division rounded toward zero (R10). -/
def quot (a b : Int) : Int := a.tdiv b

/-- x lies in −2^31..2^31−1, the range of an s32 operand (30_encoding.md R73). -/
abbrev InS32 (x : Int) : Prop := -(2 ^ 31) ≤ x ∧ x < 2 ^ 31

/-- `popcount(v)` of a row: its number of 1 bits (R10). -/
def popcount (v : Row) : Nat :=
  (v.getLsbD 0).toNat + (v.getLsbD 1).toNat + (v.getLsbD 2).toNat + (v.getLsbD 3).toNat

/-- `v[2:0]` of a counter: the row index `counter mod 8` (R10, 10_state.md R30). -/
def rowIndex (ctr : Word) : RowIndex := ctr.extractLsb' 0 3

end Sys2Proof.Machine
end

