-- ==== Sys2Proof/Syntax.lean ====
section
/-! DEFINITION. The commands of STEPSEQ as syntax: one constructor for each row of spec/opcode_table.json. An operand
stands as 30_encoding.md R73 reads it: a signed or unsigned integer, or a binary32 value; an ignored `arg` stands as the
32 bits it is (R77), so that no bit of a command word is lost. -/

namespace Sys2Proof

/-- An IEEE-754 binary32 operand in its three fields (41_conversion.md R139): sign arg[31], biased exponent arg[30:23],
fraction arg[22:0]. -/
structure Binary32 where
  sign     : BitVec 1
  exponent : BitVec 8
  fraction : BitVec 23
  deriving DecidableEq, Repr

/-- The commands (30_encoding.md R74) in the order of spec/opcode_table.json. -/
inductive Instr where
  /-- 0x1 STEP: advance by n signed steps. -/
  | step (n : Int)
  /-- 0x2 QUARTER: rotate by q quarter turns. -/
  | quarter (q : Int)
  /-- 0x3 HALF: rotate by h half turns. -/
  | half (h : Int)
  /-- 0x4 FULL: rotate by f full turns. -/
  | full (f : Int)
  /-- 0x5 ANGLE: rotate by an angle in degrees. -/
  | angle (degrees : Binary32)
  /-- 0x6 SET_DELAY: set StepDelay to ms milliseconds. -/
  | setDelay (ms : Int)
  /-- 0x7 GET_DELAY; its arg is ignored. -/
  | getDelay (ignored : Word)
  /-- 0x8 SET_METHOD: set DriveMethod to the code m. -/
  | setMethod (m : Nat)
  /-- 0x9 GET_METHOD; its arg is ignored. -/
  | getMethod (ignored : Word)
  /-- 0x0, reserved; its arg is ignored. -/
  | reserved0 (ignored : Word)
  /-- 0xA, reserved; its arg is ignored. -/
  | reservedA (ignored : Word)
  /-- 0xB, reserved; its arg is ignored. -/
  | reservedB (ignored : Word)
  /-- 0xC, reserved; its arg is ignored. -/
  | reservedC (ignored : Word)
  /-- 0xD, reserved; its arg is ignored. -/
  | reservedD (ignored : Word)
  /-- 0xE, reserved; its arg is ignored. -/
  | reservedE (ignored : Word)
  /-- 0xF, reserved; its arg is ignored. -/
  | reservedF (ignored : Word)
  deriving DecidableEq, Repr

end Sys2Proof
end

