-- ==== Sys2Proof/WellFormed.lean ====
section
/-! DEFINITION. What is well formed: an operand within the range 30_encoding.md R73 admits, and a configuration that
70_reset_and_hazards.md R192 admits. -/

namespace Sys2Proof

open Machine

/-- The check: an operand is one its 32 `arg` bits can hold (30_encoding.md R73). The s32 operands lie in
−2^31..2^31−1 and the u32 operand in 0..2^32−1; a binary32 operand and an ignored arg are 32 bits by their type. -/
def Instr.wellFormed (i : Instr) : Bool :=
  match i with
  | .step n      => decide (InS32 n)
  | .quarter q   => decide (InS32 q)
  | .half h      => decide (InS32 h)
  | .full f      => decide (InS32 f)
  | .angle _     => true
  | .setDelay ms => decide (InS32 ms)
  | .getDelay _  => true
  | .setMethod m => decide (m < 2 ^ 32)
  | .getMethod _ => true
  | .reserved0 _ => true
  | .reservedA _ => true
  | .reservedB _ => true
  | .reservedC _ => true
  | .reservedD _ => true
  | .reservedE _ => true
  | .reservedF _ => true

/-- The instruction passes the check. -/
abbrev Instr.WellFormed (i : Instr) : Prop := i.wellFormed = true

namespace Config

/-- R53: every row of WAVE_ROWS has exactly one 1 bit. -/
abbrev WaveRowsOk (c : Config) : Prop := ∀ i : Fin 8, popcount c.waveRows[i] = 1

/-- R54: every row of HALF_ROWS has one or two 1 bits, and neighbouring rows differ in that count. -/
abbrev HalfRowsOk (c : Config) : Prop :=
  (∀ i : Fin 8, popcount c.halfRows[i] = 1 ∨ popcount c.halfRows[i] = 2) ∧
  ∀ i : Fin 7, popcount c.halfRows[i.castSucc] ≠ popcount c.halfRows[i.succ]

/-- R8, R192: TMR_W ≥ ceil(log2((2^31−1)·P_TICKS_PER_MS)), written without the logarithm (log entry 6). -/
abbrev TmrWidthOk (c : Config) : Prop := (2 ^ 31 - 1) * c.ticksPerMs ≤ 2 ^ c.tmrWidth

/-- 70_reset_and_hazards.md R192: the configurations that have a meaning. -/
abbrev Admissible (c : Config) : Prop :=
  (1 ≤ c.resetDelayMs ∧ c.resetDelayMs ≤ 2 ^ 31 - 1) ∧ c.resetMethod ≤ 2 ∧ 1 ≤ c.ticksPerMs ∧
    c.WaveRowsOk ∧ c.HalfRowsOk ∧ c.TmrWidthOk

end Config

end Sys2Proof
end

