-- ==== Sys2Proof/Decode.lean ====
section
/-! DEFINITION. The decoder and the encoder of the 36-bit command word (30_encoding.md). Every 36-bit word decodes: the
reserved opcodes are rows of the table like the others (R74, R76). -/

namespace Sys2Proof

open Machine

/-- op = cmd_word[35:32] (R72). -/
def opField (w : CommandWord) : Opcode := w.extractLsb' 32 4

/-- arg = cmd_word[31:0] (R72). -/
def argField (w : CommandWord) : Word := w.extractLsb' 0 32

/-- The binary32 reading of `arg` (R73, 41_conversion.md R139). -/
def readBinary32 (arg : Word) : Binary32 where
  sign     := arg.extractLsb' 31 1
  exponent := arg.extractLsb' 23 8
  fraction := arg.extractLsb' 0 23

/-- The 32 bits of a binary32 operand (41_conversion.md R139). -/
def Binary32.bits (a : Binary32) : Word := a.sign ++ a.exponent ++ a.fraction

/-- The command of an opcode with its `arg` read as R73 says; the opcode map is R74. The last arm is opcode 0xF: a
4-bit field has no other value left. -/
def decodeFields (op : Opcode) (arg : Word) : Instr :=
  match op.toNat with
  | 0x0 => .reserved0 arg
  | 0x1 => .step (s32 arg)
  | 0x2 => .quarter (s32 arg)
  | 0x3 => .half (s32 arg)
  | 0x4 => .full (s32 arg)
  | 0x5 => .angle (readBinary32 arg)
  | 0x6 => .setDelay (s32 arg)
  | 0x7 => .getDelay arg
  | 0x8 => .setMethod (u32 arg)
  | 0x9 => .getMethod arg
  | 0xA => .reservedA arg
  | 0xB => .reservedB arg
  | 0xC => .reservedC arg
  | 0xD => .reservedD arg
  | 0xE => .reservedE arg
  | _   => .reservedF arg

/-- The command of a command word (R70, R72). -/
def decode (w : CommandWord) : Instr := decodeFields (opField w) (argField w)

/-- Why a number is no command word. -/
inductive DecodeError where
  /-- The number has a bit above bit 35: the port `cmd_word` is 36 bits wide (10_state.md R22). -/
  | widerThan36Bits
  deriving DecidableEq, Repr

/-- The decoder on any number: a number that does not fit the 36-bit port is rejected by name. -/
def decodeNat (w : Nat) : Except DecodeError Instr :=
  if w < 2 ^ 36 then .ok (decode (BitVec.ofNat 36 w)) else .error .widerThan36Bits

/-- What the decoder reads from `nbits` bits w, numbered as spec/opcode_table.json numbers them, every bit above them 0:
STEPSEQ has one parallel command word and no byte order (20_memory.md R59). -/
def decodeTableWord (nbits w : Nat) : Option Instr :=
  match decodeNat (w % 2 ^ nbits) with
  | .ok i    => some i
  | .error _ => none

/-- The opcode of a command (R74). -/
def Instr.opcode : Instr → Opcode
  | .step _      => 0x1
  | .quarter _   => 0x2
  | .half _      => 0x3
  | .full _      => 0x4
  | .angle _     => 0x5
  | .setDelay _  => 0x6
  | .getDelay _  => 0x7
  | .setMethod _ => 0x8
  | .getMethod _ => 0x9
  | .reserved0 _ => 0x0
  | .reservedA _ => 0xA
  | .reservedB _ => 0xB
  | .reservedC _ => 0xC
  | .reservedD _ => 0xD
  | .reservedE _ => 0xE
  | .reservedF _ => 0xF

/-- The `arg` bits of a command's operand (R73). -/
def Instr.argBits : Instr → Word
  | .step n      => bits32 n
  | .quarter q   => bits32 q
  | .half h      => bits32 h
  | .full f      => bits32 f
  | .angle a     => a.bits
  | .setDelay ms => bits32 ms
  | .getDelay v  => v
  | .setMethod m => BitVec.ofNat 32 m
  | .getMethod v => v
  | .reserved0 v => v
  | .reservedA v => v
  | .reservedB v => v
  | .reservedC v => v
  | .reservedD v => v
  | .reservedE v => v
  | .reservedF v => v

/-- The command word of a command: op in bits 35..32, arg in bits 31..0 (R72). -/
def encode (i : Instr) : CommandWord := i.opcode ++ i.argBits

end Sys2Proof
end

