-- ==== Sys2Proof/Machine/State.lean ====
section
/-! DEFINITION. The state of STEPSEQ (10_state.md), as plain data, and its reset values (R40). -/

namespace Sys2Proof.Machine

/-- `st`: IDLE or RUN (10_state.md R28). -/
inductive RunState where
  | idle
  | run
  deriving DecidableEq, Repr

/-- `dir`: FWD counts down, REV counts up (10_state.md R29). -/
inductive Direction where
  | fwd
  | rev
  deriving DecidableEq, Repr

/-- The levels of the input pins at one rising edge (10_state.md R22). -/
structure Pins where
  /-- rst: synchronous reset, active high. -/
  rst      : Bool
  /-- cmd_valid: the host offers a command. -/
  cmdValid : Bool
  /-- cmd_word. -/
  cmdWord  : CommandWord
  deriving DecidableEq, Repr

/-- The machine's state: the registers of 10_state.md, the parameters with the ROM's contents, and the pins to come. -/
structure State where
  /-- The parameters and the contents of the ROM (00_scope.md R8, 20_memory.md R51); no step changes them. -/
  config      : Config
  /-- The MODEL's own field: the input pins at the coming edges, the next edge's first; past its end the host drives
  nothing. DESIGN CHOICE, unsafe (log entry 2). -/
  port        : List Pins
  /-- DRIVE_METHOD (R23). -/
  driveMethod : Method
  /-- STEP_DELAY, in milliseconds (R24). -/
  stepDelay   : Word
  /-- coil: the four coil outputs (R26). -/
  coil        : Row
  /-- coil_wr: a write happened at the last edge (R27). -/
  coilWr      : Bool
  /-- st (R28). -/
  st          : RunState
  /-- dir (R29). -/
  dir         : Direction
  /-- ctr: the step counter (R30). -/
  ctr         : Word
  /-- left: the writes still to be made in the run (R31). -/
  left        : Word
  /-- tmr: the inter-step timer, TMR_W bits read as unsigned (R32; log entry 6). -/
  tmr         : Nat
  /-- nres: bits32(n) of the run in progress (R33). -/
  nres        : Word
  /-- rsp_valid (R34). -/
  rspValid    : Bool
  /-- rsp_status (R34). -/
  rspStatus   : Status
  /-- rsp_data (R34). -/
  rspData     : Word
  deriving DecidableEq, Repr

/-- The faults of STEPSEQ: none. "STEPSEQ has no traps. An error is reported only as the status of the failing command's
single response" (60_exceptions.md R170), so nothing raises one. -/
inductive Fault : Type
  deriving DecidableEq, Repr

/-- Why the model gives no meaning. -/
inductive Refusal where
  /-- Raised by exec's arm of an instruction that has no meaning yet; safe: nothing is claimed of it. -/
  | notModelled (mnemonic : String)
  /-- Raised by `step` at every edge under a configuration that is not `Config.Admissible`: "A model refuses any other
  configuration and gives it no meaning" (70_reset_and_hazards.md R192). Safe: nothing is claimed of it. -/
  | inadmissibleConfiguration
  deriving DecidableEq, Repr

/-- The state right after reset under the configuration c: every register at its value of 10_state.md R40. -/
def State.resetOf (c : Config) : State where
  config      := c
  port        := []
  driveMethod := BitVec.ofNat 2 c.resetMethod
  stepDelay   := BitVec.ofNat 32 c.resetDelayMs
  coil        := 0b0000
  coilWr      := false
  st          := .idle
  dir         := .fwd
  ctr         := 0
  left        := 0
  tmr         := 0
  nres        := 0
  rspValid    := false
  rspStatus   := 0
  rspData     := 0

/-- The state right after reset, under `Config.reference` (DESIGN CHOICE, unsafe, log entry 4). -/
def State.reset : State := State.resetOf Config.reference

end Sys2Proof.Machine
end

