-- ==== Sys2Proof/Machine/Flags.lean ====
section
/-! DEFINITION. The status indications. STEPSEQ has no condition codes and no arithmetic flags (10_state.md R36): what it
has is `busy`, `cmd_ready` (R35) and the codes of `rsp_status` (30_encoding.md R79). -/

namespace Sys2Proof.Machine

/-- Status 0, OK (R79). -/
def statusOk : Status := 0

/-- Status 1, INVALID_CONFIGURATION (R79). -/
def statusInvalidConfiguration : Status := 1

/-- Status 2, ILLEGAL_COMMAND (R79). -/
def statusIllegalCommand : Status := 2

/-- Method code 0, WAVE_DRIVE (10_state.md R23). -/
def waveDrive : Method := 0

/-- Method code 1, FULL_STEP (10_state.md R23). -/
def fullStep : Method := 1

/-- Method code 2, HALF_STEP (10_state.md R23). -/
def halfStep : Method := 2

/-- `busy = (st == RUN)` (10_state.md R35). -/
def busy (s : State) : Bool := s.st == .run

/-- `cmd_ready = (st == IDLE) and (rst == 0)` (10_state.md R35), with rst the pin at the edge. -/
def cmdReady (rst : Bool) (s : State) : Bool := s.st == .idle && !rst

end Sys2Proof.Machine
end

