-- ==== Sys2Proof/Machine/Operands.lean ====
section
/-! DEFINITION. The unit converter (41_conversion.md): the signed step count of each motion command's operand. It is
combinational and holds no state (R130). -/

namespace Sys2Proof.Machine

/-- Kq(m): steps per quarter turn (R132). -/
def kq (m : Method) : Int :=
  if m = halfStep then Config.halfFactor * Config.stepsPerQuarter else Config.stepsPerQuarter

/-- Ka(m): steps per 360 degrees (R132). -/
def ka (m : Method) : Int :=
  if m = halfStep then Config.stepsPerQuarter * 8 else Config.stepsPerQuarter * 4

/-- The n of QUARTER (R131, wrapping by R144). -/
def quarterSteps (m : Method) (q : Int) : Int := wrap32 (kq m * q)

/-- The n of HALF (R133): it delegates to quarterRotation(2h). -/
def halfSteps (m : Method) (h : Int) : Int := quarterSteps m (wrap32 (2 * h))

/-- The n of FULL (R135): it delegates to halfRotation(2f). -/
def fullSteps (m : Method) (f : Int) : Int := halfSteps m (wrap32 (2 * f))

/-- A binary32 value: every finite one is a whole number of units of 2^−149, so it is held exactly (log entry 10). -/
inductive F32 where
  | nan
  | infinite (negative : Bool)
  | finite (units : Int)
  deriving DecidableEq, Repr

/-- The magnitude of a finite binary32 in units of 2^−149 (R139): F for E = 0, and (2^23 + F)·2^(E−1) for E ≥ 1. -/
def binary32Units (a : Binary32) : Nat :=
  if a.exponent = 0 then a.fraction.toNat else (2 ^ 23 + a.fraction.toNat) * 2 ^ (a.exponent.toNat - 1)

/-- The value of a binary32 operand (R139). -/
def binary32Value (a : Binary32) : F32 :=
  if a.exponent = 255 then
    if a.fraction = 0 then .infinite (a.sign == 1) else .nan
  else .finite (if a.sign = 1 then -(binary32Units a : Int) else binary32Units a)

/-- The largest finite binary32, (2 − 2^−23)·2^127, in units of 2^−149 (R140). -/
def maxFiniteUnits : Int := (2 ^ 24 - 1) * 2 ^ 253

/-- p = K · angle formed in binary32, for K a power of two (R140): exact unless |K·angle| exceeds the largest finite
value, and then ±∞. -/
def F32.scale (k : Int) : F32 → F32
  | .nan        => .nan
  | .infinite b => .infinite b
  | .finite u   =>
    if maxFiniteUnits < k * u then .infinite false
    else if k * u < -maxFiniteUnits then .infinite true
    else .finite (k * u)

/-- f2i(p) (R140): NaN to 0, saturation to −2^31..2^31−1, else truncation toward zero. -/
def F32.f2i : F32 → Int
  | .nan            => 0
  | .infinite false => 2 ^ 31 - 1
  | .infinite true  => -(2 ^ 31)
  | .finite u       =>
    if 2 ^ 31 * 2 ^ 149 ≤ u then 2 ^ 31 - 1
    else if u ≤ -(2 ^ 31) * 2 ^ 149 then -(2 ^ 31)
    else quot u (2 ^ 149)

/-- t = f2i(K · angle) (R137, R140). -/
def angleTicks (m : Method) (a : Binary32) : Int := ((binary32Value a).scale (ka m)).f2i

/-- The n of ANGLE (R137): truncate, then divide by 360 toward zero (R141). -/
def angleSteps (m : Method) (a : Binary32) : Int := quot (angleTicks m a) 360

end Sys2Proof.Machine
end

