-- ==== Sys2Proof/Machine/Ops.lean ====
section
/-! DEFINITION. The named operations every command and every edge is written with: the port, the response, the ROM, the
coil write, the run's start and step, the one error outcome, and the reset edge. -/

namespace Sys2Proof.Machine

/-- The pins of a host that drives nothing (log entry 2). -/
def Pins.quiet : Pins := ⟨false, false, 0⟩

/-- The input pins at the coming edge. -/
def State.pins (s : State) : Pins := s.port.headD Pins.quiet

/-- The same state with the coming edge's pins taken off the schedule. -/
def State.takePins (s : State) : State := { s with port := s.port.tail }

/-- What happens to the two pulses at an edge that does not set them: coil_wr ← 0 (10_state.md R27) and rsp_valid ← 0
(R34). -/
def State.clearPulses (s : State) : State := { s with coilWr := false, rspValid := false }

/-- `respond(status, data)` (10_state.md R34, 30_encoding.md R80). -/
def State.respond (status : Status) (data : Word) (s : State) : State :=
  { s with rspValid := true, rspStatus := status, rspData := data }

/-- `RomRead(m, i)` (20_memory.md R51, R52); a read with m = 3 gives the content of words 24..31, a free value (R62, log
entry 5). -/
def romRead (c : Config) (m : Method) (i : RowIndex) : Row :=
  if m = waveDrive then c.waveRows[i.toNat]'i.isLt
  else if m = fullStep then c.waveRows[i.toNat]'i.isLt
  else if m = halfStep then c.halfRows[i.toNat]'i.isLt
  else Config.unusedRomRow i

/-- `CoilWrite(v)` (20_memory.md R57). -/
def State.coilWrite (v : Row) (s : State) : State := { s with coil := v, coilWr := true }

/-- The value D·T − 1 loaded into the timer at each write (10_state.md R32), as TMR_W bits hold it; a free value of
TMR_W bits where STEP_DELAY ≤ 0, which no state after a reset has (log entry 6). -/
def State.timerLoad (s : State) : Nat :=
  (if 0 < s32 s.stepDelay then (s32 s.stepDelay * s.config.ticksPerMs - 1).toNat
    else Config.timerOfIllegalDelay s.stepDelay s.config.ticksPerMs) % 2 ^ s.config.tmrWidth

/-- The row a write with counter value `ctr` selects (20_memory.md R57). -/
def State.rowAt (s : State) (ctr : Word) : Row := romRead s.config s.driveMethod (rowIndex ctr)

/-- The direction of a run of n steps (10_state.md R29). -/
def runDirection (n : Int) : Direction := if 0 < n then .fwd else .rev

/-- c0, the counter value of a run's first write (40_motion.md R101). -/
def firstCounter (n : Int) : Word := if 0 < n then bits32 n else 0

/-- `start_run(n)` (40_motion.md R101). -/
def State.startRun (n : Int) (s : State) : State :=
  { s.clearPulses.coilWrite (s.rowAt (firstCounter n)) with
    dir  := runDirection n
    ctr  := firstCounter n
    left := BitVec.ofNat 32 (n.natAbs - 1)
    nres := bits32 n
    tmr  := s.timerLoad
    st   := .run }

/-- An immediate command's answer at its acceptance edge (30_encoding.md R75): the response, and no coil write. -/
def State.answer (status : Status) (data : Word) (s : State) : State := s.clearPulses.respond status data

/-- The motion dispatch of a step count n (40_motion.md R100). -/
def motionDispatch (n : Int) (s : State) : Host.Outcome State Fault Refusal :=
  if n = 0 then .next (s.answer statusOk (bits32 0)) else .next (s.startRun n)

/-- Taking an error, the whole of it (60_exceptions.md R170, R177): the response with the error's status and data 0; no
state is saved, no mode changes, nothing is vectored, and there is no return (R178). -/
def raiseError (status : Status) (s : State) : Host.Outcome State Fault Refusal := .next (s.answer status 0)

/-- The counter value of the next write: down in a forward run, up in a reverse run (40_motion.md R103). Forward from 0 and
in reverse from 2^32 − 1, which only a run from before the first reset can reach (R108), it is a free value: DESIGN CHOICE,
safe. In reverse from 2^31 − 1 up to 2^32 − 2, where R108 says ctr + 1 is never applied, it is R103's ctr + 1 all the same:
DEDUCED, unsafe (log entry 13). -/
def State.nextCounter (s : State) : Word :=
  match s.dir with
  | .fwd => if s.ctr = 0 then Config.counterPastItsEnd s.left else s.ctr - 1
  | .rev => if s.ctr = BitVec.allOnes 32 then Config.counterPastItsEnd s.left else s.ctr + 1

/-- A write of a run after its first (40_motion.md R103, the `elif`). -/
def State.runWrite (s : State) : State :=
  { s.clearPulses.coilWrite (s.rowAt s.nextCounter) with
    ctr  := s.nextCounter
    left := s.left - 1
    tmr  := s.timerLoad }

/-- `end_run()` (40_motion.md R104). -/
def State.endRun (s : State) : State := { s.clearPulses.respond statusOk s.nres with st := .idle }

/-- The run step at an edge with st == RUN and rst == 0 (40_motion.md R103). -/
def State.runEdge (s : State) : State :=
  if s.tmr ≠ 0 then { s.clearPulses with tmr := s.tmr - 1 }
  else if s.left ≠ 0 then s.runWrite
  else s.endRun

/-- The edge with rst == 1: every register takes its reset value (70_reset_and_hazards.md R190); the pins to come are
the host's. -/
def State.resetEdge (s : State) : State := { State.resetOf s.config with port := s.port }

end Sys2Proof.Machine
end

