-- ==== Sys2Proof/Machine/Configuration.lean ====
section
/-! DEFINITION. SET_DELAY, GET_DELAY, SET_METHOD and GET_METHOD (42_config.md): immediate commands. -/

namespace Sys2Proof.Machine

/-- SET_DELAY ms (R150, R151). -/
def execSetDelay (ms : Int) (s : State) : Host.Outcome State Fault Refusal :=
  if ms ≤ 0 then raiseError statusInvalidConfiguration s
  else .next (({ s with stepDelay := bits32 ms } : State).answer statusOk 0)

/-- GET_DELAY, its arg ignored (R152, 30_encoding.md R77). -/
def execGetDelay (_ignored : Word) (s : State) : Host.Outcome State Fault Refusal :=
  .next (s.answer statusOk s.stepDelay)

/-- SET_METHOD m (R153, R154): the whole operand is checked, and its low two bits are stored. -/
def execSetMethod (m : Nat) (s : State) : Host.Outcome State Fault Refusal :=
  if 2 < m then raiseError statusInvalidConfiguration s
  else .next (({ s with driveMethod := BitVec.ofNat 2 m } : State).answer statusOk 0)

/-- GET_METHOD, its arg ignored (R156, 30_encoding.md R77). -/
def execGetMethod (_ignored : Word) (s : State) : Host.Outcome State Fault Refusal :=
  .next (s.answer statusOk (s.driveMethod.setWidth 32))

end Sys2Proof.Machine
end

