-- ==== Sys2Proof/Machine/Conversion.lean ====
section
/-! DEFINITION. QUARTER, HALF, FULL and ANGLE (41_conversion.md): each computes its step count from its operand and
DRIVE_METHOD at the acceptance edge (R130) and then runs the motion dispatch. -/

namespace Sys2Proof.Machine

/-- QUARTER q: rotate by q quarter turns (R131). -/
def execQuarter (q : Int) (s : State) : Host.Outcome State Fault Refusal :=
  motionDispatch (quarterSteps s.driveMethod q) s

/-- HALF h: rotate by h half turns (R133). -/
def execHalf (h : Int) (s : State) : Host.Outcome State Fault Refusal :=
  motionDispatch (halfSteps s.driveMethod h) s

/-- FULL f: rotate by f full turns (R135). -/
def execFull (f : Int) (s : State) : Host.Outcome State Fault Refusal :=
  motionDispatch (fullSteps s.driveMethod f) s

/-- ANGLE a: rotate by an angle in degrees (R137). -/
def execAngle (a : Binary32) (s : State) : Host.Outcome State Fault Refusal :=
  motionDispatch (angleSteps s.driveMethod a) s

end Sys2Proof.Machine
end

