-- ==== Sys2Proof/Machine/Motion.lean ====
section
/-! DEFINITION. STEP (40_motion.md section 2). -/

namespace Sys2Proof.Machine

/-- STEP n: advance by n signed steps (R110). -/
def execStep (n : Int) (s : State) : Host.Outcome State Fault Refusal := motionDispatch n s

end Sys2Proof.Machine
end

