-- ==== Sys2Proof/Machine/Reserved.lean ====
section
/-! DEFINITION. The reserved opcodes (42_config.md R158): each raises IllegalCommand (60_exceptions.md R172) whatever its
arg, since the opcode is decoded first (R176). -/

namespace Sys2Proof.Machine

/-- The reserved opcode 0x0 (R158, R172). -/
def execReserved0 (_ignored : Word) (s : State) : Host.Outcome State Fault Refusal :=
  raiseError statusIllegalCommand s

/-- The reserved opcode 0xA (R158, R172). -/
def execReservedA (_ignored : Word) (s : State) : Host.Outcome State Fault Refusal :=
  raiseError statusIllegalCommand s

/-- The reserved opcode 0xB (R158, R172). -/
def execReservedB (_ignored : Word) (s : State) : Host.Outcome State Fault Refusal :=
  raiseError statusIllegalCommand s

/-- The reserved opcode 0xC (R158, R172). -/
def execReservedC (_ignored : Word) (s : State) : Host.Outcome State Fault Refusal :=
  raiseError statusIllegalCommand s

/-- The reserved opcode 0xD (R158, R172). -/
def execReservedD (_ignored : Word) (s : State) : Host.Outcome State Fault Refusal :=
  raiseError statusIllegalCommand s

/-- The reserved opcode 0xE (R158, R172). -/
def execReservedE (_ignored : Word) (s : State) : Host.Outcome State Fault Refusal :=
  raiseError statusIllegalCommand s

/-- The reserved opcode 0xF (R158, R172). -/
def execReservedF (_ignored : Word) (s : State) : Host.Outcome State Fault Refusal :=
  raiseError statusIllegalCommand s

end Sys2Proof.Machine
end

