-- ==== Sys2Proof/Machine/Dispatch.lean ====
section
/-! DEFINITION. What each command does at its acceptance edge: one arm for each constructor of Instr. -/

namespace Sys2Proof.Machine

/-- The effect of an accepted command at its acceptance edge (30_encoding.md R71, R75). -/
def exec (i : Instr) (s : State) : Host.Outcome State Fault Refusal :=
  match i with
  | .step n => Sys2Proof.Machine.execStep n s
  | .quarter q => Sys2Proof.Machine.execQuarter q s
  | .half h => Sys2Proof.Machine.execHalf h s
  | .full f => Sys2Proof.Machine.execFull f s
  | .angle a => Sys2Proof.Machine.execAngle a s
  | .setDelay ms => Sys2Proof.Machine.execSetDelay ms s
  | .getDelay v => Sys2Proof.Machine.execGetDelay v s
  | .setMethod m => Sys2Proof.Machine.execSetMethod m s
  | .getMethod v => Sys2Proof.Machine.execGetMethod v s
  | .reserved0 v => Sys2Proof.Machine.execReserved0 v s
  | .reservedA v => Sys2Proof.Machine.execReservedA v s
  | .reservedB v => Sys2Proof.Machine.execReservedB v s
  | .reservedC v => Sys2Proof.Machine.execReservedC v s
  | .reservedD v => Sys2Proof.Machine.execReservedD v s
  | .reservedE v => Sys2Proof.Machine.execReservedE v s
  | .reservedF v => Sys2Proof.Machine.execReservedF v s

end Sys2Proof.Machine
end

