-- ==== Sys2Proof/Machine/Edge.lean ====
section
/-! DEFINITION. One rising edge of `clk` with given input pins, under an admissible configuration. -/

namespace Sys2Proof.Machine

/-- "A command is accepted at rising edge a exactly when cmd_valid == 1 and cmd_ready == 1 at edge a" (30_encoding.md
R71). -/
def accepts (p : Pins) (s : State) : Bool := p.cmdValid && cmdReady p.rst s

/-- The edge. Reset comes before everything (70_reset_and_hazards.md R190); an accepted command is executed (30_encoding.md
R71); otherwise a run takes its step (40_motion.md R103), and an idle machine only ends its pulses (10_state.md R27, R34).
A command offered during a run is not accepted, and nothing happens to it (R71). -/
def edge (p : Pins) (s : State) : Host.Outcome State Fault Refusal :=
  if p.rst then .next s.resetEdge
  else if accepts p s then exec (decode p.cmdWord) s
  else if busy s then .next s.runEdge
  else .next s.clearPulses

/-- The pins that offer `w` % 2^nbits as a command at an edge without reset. -/
def Pins.offer (nbits w : Nat) : Pins := ⟨false, true, BitVec.ofNat 36 (w % 2 ^ nbits)⟩

end Sys2Proof.Machine
end

