-- ==== Sys2Proof/Machine/Step.lean ====
section
/-! DEFINITION. The machine's step: one rising edge of `clk` (00_scope.md R12, log entry 1). -/

namespace Sys2Proof.Machine

/-- One rising edge. An inadmissible configuration has no meaning (70_reset_and_hazards.md R192, log entry 7). -/
def step (s : State) : Host.Outcome State Fault Refusal :=
  if s.config.Admissible then edge s.pins s.takePins else .refused .inadmissibleConfiguration

/-- s with the host offering the command word w at the very next edge, and no run in progress, so that the command is
accepted there (30_encoding.md R71; log entry 9). The pins of the edges after it are as they were. -/
def State.withFetchWord (s : State) (nbits w : Nat) : State :=
  { s with st := .idle, port := Pins.offer nbits w :: s.port.tail }

end Sys2Proof.Machine
end

