-- ==== Sys2Proof/Safety.lean ====
section
/-! DEFINITION. What a safe run is: the invariant of the machine and of a run in progress; and the vocabulary the claims
about commands and runs use, in the spec's own numbers. -/

namespace Sys2Proof

/-- The signed step count a motion command asks for under the drive method m (41_conversion.md), and none for the other
commands. -/
def Instr.motionSteps (m : Method) : Instr → Option Int
  | .step n      => some n
  | .quarter q   => some (Machine.quarterSteps m q)
  | .half h      => some (Machine.halfSteps m h)
  | .full f      => some (Machine.fullSteps m f)
  | .angle a     => some (Machine.angleSteps m a)
  | .setDelay _  => none
  | .getDelay _  => none
  | .setMethod _ => none
  | .getMethod _ => none
  | .reserved0 _ => none
  | .reservedA _ => none
  | .reservedB _ => none
  | .reservedC _ => none
  | .reservedD _ => none
  | .reservedE _ => none
  | .reservedF _ => none

/-- The reserved opcodes (30_encoding.md R76). -/
def Instr.isReserved : Instr → Bool
  | .step _      => false
  | .quarter _   => false
  | .half _      => false
  | .full _      => false
  | .angle _     => false
  | .setDelay _  => false
  | .getDelay _  => false
  | .setMethod _ => false
  | .getMethod _ => false
  | .reserved0 _ => true
  | .reservedA _ => true
  | .reservedB _ => true
  | .reservedC _ => true
  | .reservedD _ => true
  | .reservedE _ => true
  | .reservedF _ => true

/-- The real value of a finite binary32 (41_conversion.md R139). -/
def Binary32.real (a : Binary32) : ℚ :=
  (-1) ^ a.sign.toNat *
    (if a.exponent = 0 then (2 : ℚ) ^ (-126 : ℤ) * (a.fraction.toNat / 2 ^ 23)
     else (2 : ℚ) ^ ((a.exponent.toNat : ℤ) - 127) * (1 + a.fraction.toNat / 2 ^ 23))

namespace Machine

/-- `trunc(r)` of 00_scope.md R10: a real rounded toward zero. -/
def truncRat (r : ℚ) : ℤ := if 0 ≤ r then ⌊r⌋ else ⌈r⌉

/-- The row index of counter value k: `k mod 8` (40_motion.md R102). -/
def rowOf (k : Nat) : RowIndex := BitVec.ofNat 3 (k % 8)

/-- c_{k+1}, the counter value of write k+1 of a run of n steps, k from 0 (40_motion.md R102). -/
def writeCounter (n : Int) (k : Nat) : Nat := if 0 < n then n.natAbs - k else k

/-- D·T, the edges from one write to the next (40_motion.md R105). -/
def State.period (s : State) : Nat := (s32 s.stepDelay * s.config.ticksPerMs).toNat

/-- The run counters of a run in progress (10_state.md R30, R31, 40_motion.md R108): forward, ctr is in 1..n and the
writes left bring it down to 1; reverse, they bring it up to abs(n)−1. -/
def RunCounts (s : State) : Prop :=
  match s.dir with
  | .fwd => 0 < s32 s.nres ∧ (s.ctr.toNat : Int) ≤ s32 s.nres ∧ s.ctr.toNat = s.left.toNat + 1
  | .rev => s32 s.nres < 0 ∧ s.ctr.toNat + s.left.toNat + 1 = (s32 s.nres).natAbs

/-- What holds in every cycle with st = RUN. -/
structure RunInv (s : State) : Prop where
  /-- The counter and the writes left agree with the run's step count. -/
  counts      : RunCounts s
  /-- coil is the row of the write most recently made (10_state.md R26, R30). -/
  row         : s.coil = romRead s.config s.driveMethod (rowOf s.ctr.toNat)
  /-- The timer is at most D·T − 1. -/
  timer       : s.tmr + 1 ≤ s.period
  /-- coil_wr is 1 exactly in the cycle after a write, when the timer has its loaded value (R27, R32). -/
  pulse       : s.coilWr = true ↔ s.tmr + 1 = s.period
  /-- The run has not been answered yet (40_motion.md R101). -/
  no_response : s.rspValid = false

/-- The invariant of the machine: it holds after reset, and every edge keeps it. -/
structure State.Inv (s : State) : Prop where
  /-- 70_reset_and_hazards.md R192. -/
  config_ok     : s.config.Admissible
  /-- "The value 3 is never held" (10_state.md R23). -/
  method_legal  : s.driveMethod ≠ 3
  /-- 1 ≤ s32(STEP_DELAY) (10_state.md R24). -/
  delay_pos     : 1 ≤ s32 s.stepDelay
  /-- The timer fits its TMR_W bits (10_state.md R32). -/
  timer_fits    : s.tmr < 2 ^ s.config.tmrWidth
  /-- Status 3 is never produced (30_encoding.md R79). -/
  status_legal  : s.rspStatus ≠ 3
  /-- coil is all LOW or a whole row of a table (20_memory.md R57, 10_state.md R40). -/
  coil_legal    : s.coil = 0 ∨ ∃ m i, m ≠ 3 ∧ s.coil = romRead s.config m i
  /-- A write happens only in a run (40_motion.md R101, R103, R104). -/
  pulse_in_run  : s.coilWr = true → s.st = .run
  /-- The invariant of a run in progress. -/
  run           : s.st = .run → RunInv s

/-- The parameters, the registers a command can set, and the pins to come are the same. -/
structure SameSettings (s t : State) : Prop where
  config      : t.config = s.config
  port        : t.port = s.port
  driveMethod : t.driveMethod = s.driveMethod
  stepDelay   : t.stepDelay = s.stepDelay

/-- The run state is the same. -/
structure SameRun (s t : State) : Prop where
  st   : t.st = s.st
  dir  : t.dir = s.dir
  ctr  : t.ctr = s.ctr
  left : t.left = s.left
  tmr  : t.tmr = s.tmr
  nres : t.nres = s.nres

/-- t answers with the response (status, data), writes no coil and leaves the run state as it is in s (30_encoding.md R75,
R78). Nothing is said of the settings. -/
structure Answers (status : Status) (data : Word) (s t : State) : Prop where
  rspValid  : t.rspValid = true
  rspStatus : t.rspStatus = status
  rspData   : t.rspData = data
  coil      : t.coil = s.coil
  coilWr    : t.coilWr = false
  run       : SameRun s t

/-- t is s just after the start of a run of n steps (40_motion.md R101). -/
structure RunStarted (n : Int) (s t : State) : Prop where
  st        : t.st = .run
  dir       : t.dir = if 0 < n then .fwd else .rev
  ctr       : t.ctr.toNat = writeCounter n 0
  left      : t.left.toNat = n.natAbs - 1
  nres      : s32 t.nres = n
  tmr       : (t.tmr : Int) = s32 s.stepDelay * s.config.ticksPerMs - 1
  coil      : t.coil = romRead s.config s.driveMethod (rowOf (writeCounter n 0))
  coilWr    : t.coilWr = true
  rspValid  : t.rspValid = false
  rspStatus : t.rspStatus = s.rspStatus
  rspData   : t.rspData = s.rspData
  settings  : SameSettings s t

/-- t is s after the motion dispatch of n steps (40_motion.md R100). -/
def Dispatched (n : Int) (s t : State) : Prop :=
  if n = 0 then Answers 0 0 s t ∧ SameSettings s t else RunStarted n s t

/-- s and t agree in every register an output or a later command can show: all of them, but for the run registers of an
idle machine (10_state.md R37). -/
structure SameOutside (s t : State) : Prop where
  settings  : SameSettings s t
  st        : t.st = s.st
  coil      : t.coil = s.coil
  coilWr    : t.coilWr = s.coilWr
  rspValid  : t.rspValid = s.rspValid
  rspStatus : t.rspStatus = s.rspStatus
  rspData   : t.rspData = s.rspData
  run       : s.st = .run → SameRun s t

/-- The state after k edges. -/
def State.after (k : Nat) (s : State) : Host.Outcome State Fault Refusal := Host.Core.run core k s

/-- The machine is idle and, at the next edge, accepts a motion command with step count n; no reset comes at that edge or
at the `quietFor` edges after it. -/
structure AcceptsMotion (n : Int) (quietFor : Nat) (s : State) : Prop where
  config_ok : s.config.Admissible
  delay_pos : 1 ≤ s32 s.stepDelay
  idle      : s.st = .idle
  offered   : s.pins.cmdValid = true
  motion    : (decode s.pins.cmdWord).motionSteps s.driveMethod = some n
  no_reset  : ∀ p ∈ s.port.take (quietFor + 1), p.rst = false

end Machine

end Sys2Proof
end

