-- ==== Sys2Proof/Certificates/Slice0/Obligations.lean ====
section
/-! DEFINITION. The statements about STEPSEQ for the provers. -/

open Sys2Proof Sys2Proof.Machine

/-! ## Encoding -/

/-- Decoding the command word of a well-formed command gives the command back, with every operand at every value its 32
bits hold (30_encoding.md R72, R73, R74). -/
def Obligations.DecodeOfEncodeIsTheCommand : Prop :=
  ∀ i : Instr, i.WellFormed → decode (encode i) = i

/-- Every command word decodes to a well-formed command that encodes to that same word: no bit of a word is dropped, not
even of an ignored arg (30_encoding.md R72, R76, R77). -/
def Obligations.EncodeOfDecodeIsTheWord : Prop :=
  ∀ w : CommandWord, (decode w).WellFormed ∧ encode (decode w) = w

/-- The opcode map by match and mask, with `arg` read as the table of operand forms says (30_encoding.md R72, R73; the map
is R74's). -/
def Obligations.OpcodeMapReadsEveryWord : Prop :=
  ∀ w : CommandWord, let op := w &&& 0xF00000000#36; let arg : BitVec 32 := w.setWidth 32;
    (op = 0x000000000#36 → decode w = .reserved0 arg) ∧
    (op = 0x100000000#36 → decode w = .step arg.toInt) ∧
    (op = 0x200000000#36 → decode w = .quarter arg.toInt) ∧
    (op = 0x300000000#36 → decode w = .half arg.toInt) ∧
    (op = 0x400000000#36 → decode w = .full arg.toInt) ∧
    (op = 0x500000000#36 →
      decode w = .angle ⟨arg.extractLsb 31 31, arg.extractLsb 30 23, arg.extractLsb 22 0⟩) ∧
    (op = 0x600000000#36 → decode w = .setDelay arg.toInt) ∧
    (op = 0x700000000#36 → decode w = .getDelay arg) ∧
    (op = 0x800000000#36 → decode w = .setMethod arg.toNat) ∧
    (op = 0x900000000#36 → decode w = .getMethod arg) ∧
    (op = 0xA00000000#36 → decode w = .reservedA arg) ∧
    (op = 0xB00000000#36 → decode w = .reservedB arg) ∧
    (op = 0xC00000000#36 → decode w = .reservedC arg) ∧
    (op = 0xD00000000#36 → decode w = .reservedD arg) ∧
    (op = 0xE00000000#36 → decode w = .reservedE arg) ∧
    (op = 0xF00000000#36 → decode w = .reservedF arg)

/-- Words written out in the spec's examples decode to the commands they stand for: STEP −5, ANGLE 180.0 and SET_METHOD 1
in 30_encoding.md section 6, QUARTER 1 at 41_conversion.md R131 and in 95_test_vectors.md section 3 (P1), SET_DELAY −5 in
95_test_vectors.md section 2.5, and the word 0xF_00000000 at 42_config.md R158 and in 95_test_vectors.md section 3 (P2). -/
def Obligations.WordsOfTheSpecDecode : Prop :=
  decode 0x1FFFFFFFB#36 = .step (-5) ∧
  decode 0x200000001#36 = .quarter 1 ∧
  decode 0x543340000#36 = .angle ⟨0, 134, 0x340000⟩ ∧
  decode 0x6FFFFFFFB#36 = .setDelay (-5) ∧
  decode 0x800000001#36 = .setMethod 1 ∧
  decode 0xF00000000#36 = .reservedF 0

/-! ## The edge: acceptance, reset, configuration -/

/-- A command is accepted exactly when it is offered, the machine is idle and rst = 0, and then the step is exec of the
decoded command on the state with this edge's pins taken. Offered during a run, nothing is accepted and the step is the
one without the offer; offered at a reset edge, the edge is a reset and no more; not offered, cmd_word is ignored
(30_encoding.md R71). -/
def Obligations.StepExecutesTheAcceptedCommand : Prop :=
  ∀ (s : State) (w : CommandWord) (rest : List Pins), s.config.Admissible →
    (s.st = .idle → s.port = ⟨false, true, w⟩ :: rest →
      step s = exec (decode w) { s with port := rest }) ∧
    (s.st = .run → s.port = ⟨false, true, w⟩ :: rest →
      step s = .next ({ s with port := rest } : State).runEdge ∧
      step s = step { s with port := ⟨false, false, w⟩ :: rest }) ∧
    (s.port = ⟨true, true, w⟩ :: rest → step s = .next ({ s with port := rest } : State).resetEdge) ∧
    (∀ rst, s.port = ⟨rst, false, w⟩ :: rest →
      ∀ w' : CommandWord, step s = step { s with port := ⟨rst, false, w'⟩ :: rest })

/-- A word placed with withFetchWord is what the decoder reads from it, and the very next step runs it (the model's own
convention, log entry 9; 30_encoding.md R71). -/
def Obligations.PlacedWordRunsNext : Prop :=
  ∀ (s : State) (w : Nat), s.config.Admissible → w < 2 ^ 36 →
    ∃ i, decodeTableWord 36 w = some i ∧ i = decode (BitVec.ofNat 36 w) ∧
      step (s.withFetchWord 36 w) = exec i { s with st := .idle, port := s.port.tail }

/-- One edge with rst = 1, from any state whatever (in a run, or before the first reset) and whatever is offered, puts every
register at its reset value, and nothing else happens (70_reset_and_hazards.md R190, with the values of 10_state.md
R40). -/
def Obligations.ResetEdgeSetsEveryRegister : Prop :=
  ∀ s : State, s.config.Admissible → s.pins.rst = true →
    ∃ t, step s = .next t ∧
      t.driveMethod.toNat = s.config.resetMethod ∧ s32 t.stepDelay = s.config.resetDelayMs ∧
      t.coil = 0 ∧ t.coilWr = false ∧ t.st = .idle ∧ t.dir = .fwd ∧ t.ctr = 0 ∧ t.left = 0 ∧ t.tmr = 0 ∧ t.nres = 0 ∧
      t.rspValid = false ∧ t.rspStatus = 0 ∧ t.rspData = 0 ∧ t.config = s.config ∧ t.port = s.port.tail

/-- A reset during a run aborts it at once: coil becomes 0b0000, and as long as no command is offered after it, no further
write is made and the aborted command gets no response (70_reset_and_hazards.md R191). -/
def Obligations.ResetAbortsARun : Prop :=
  ∀ (s : State) (k : Nat), s.config.Admissible → s.st = .run → s.pins.rst = true →
    (∀ p ∈ s.port.tail.take k, p.cmdValid = false) →
      ∃ t, s.after (k + 1) = .next t ∧ t.st = .idle ∧ t.coil = 0 ∧ t.coilWr = false ∧ t.rspValid = false

/-- The model gives a step a meaning exactly under the admissible configurations; under any other it refuses
(70_reset_and_hazards.md R192, with the rows' rules 20_memory.md R53, R54 and the width's bound 00_scope.md R8). -/
def Obligations.OnlyAdmissibleConfigurationsHaveAMeaning : Prop :=
  ∀ s : State,
    ((1 ≤ s.config.resetDelayMs ∧ s.config.resetDelayMs ≤ 2 ^ 31 - 1 ∧
      s.config.resetMethod ∈ [0, 1, 2] ∧ 1 ≤ s.config.ticksPerMs ∧
      (∀ i : Fin 8, popcount s.config.waveRows[i] = 1) ∧
      (∀ i : Fin 8, popcount s.config.halfRows[i] ∈ [1, 2]) ∧
      (∀ i : Nat, (h : i < 7) → popcount s.config.halfRows[i] ≠ popcount s.config.halfRows[i + 1]) ∧
      Nat.clog 2 ((2 ^ 31 - 1) * s.config.ticksPerMs) ≤ s.config.tmrWidth) →
        ∃ t, step s = .next t) ∧
    (¬(1 ≤ s.config.resetDelayMs ∧ s.config.resetDelayMs ≤ 2 ^ 31 - 1 ∧
      s.config.resetMethod ∈ [0, 1, 2] ∧ 1 ≤ s.config.ticksPerMs ∧
      (∀ i : Fin 8, popcount s.config.waveRows[i] = 1) ∧
      (∀ i : Fin 8, popcount s.config.halfRows[i] ∈ [1, 2]) ∧
      (∀ i : Nat, (h : i < 7) → popcount s.config.halfRows[i] ≠ popcount s.config.halfRows[i + 1]) ∧
      Nat.clog 2 ((2 ^ 31 - 1) * s.config.ticksPerMs) ≤ s.config.tmrWidth) →
        step s = .refused .inadmissibleConfiguration)

/-- `cmd_ready = (st == IDLE) and (rst == 0)` and `busy = (st == RUN)` (10_state.md R35). -/
def Obligations.ReadyAndBusyDecodeTheState : Prop :=
  ∀ s : State, (∀ rst, cmdReady rst s = true ↔ s.st = .idle ∧ rst = false) ∧ (busy s = true ↔ s.st = .run)

/-! ## The waveform ROM -/

/-- RomRead gives WAVE_ROWS for WAVE_DRIVE and for FULL_STEP, and HALF_ROWS for HALF_STEP (20_memory.md R51, R52). -/
def Obligations.RomReadSelectsTheTable : Prop :=
  ∀ (c : Config) (i : RowIndex),
    romRead c 0 i = c.waveRows[i.toNat]'i.isLt ∧ romRead c 1 i = c.waveRows[i.toNat]'i.isLt ∧
    romRead c 2 i = c.halfRows[i.toNat]'i.isLt

/-- Under an admissible configuration every row read for WAVE_DRIVE or FULL_STEP has exactly one 1 bit, so it is 0x1, 0x2,
0x4 or 0x8 (20_memory.md R53). -/
def Obligations.WaveRowsAreOneHot : Prop :=
  ∀ (c : Config) (m : Method) (i : RowIndex), c.Admissible → (m = 0 ∨ m = 1) →
    popcount (romRead c m i) = 1 ∧ romRead c m i ∈ [0x1#4, 0x2#4, 0x4#4, 0x8#4]

/-- Under an admissible configuration the HALF_STEP rows have one and two 1 bits in turn, row 7 and row 0 included: i + 1
is taken modulo 8 (20_memory.md R54, whose clause on rows 7 and 0 the spec marks as derived). -/
def Obligations.HalfRowsAlternateAroundTheTable : Prop :=
  ∀ (c : Config) (i : RowIndex), c.Admissible →
    (popcount (romRead c 2 i) = 1 ∨ popcount (romRead c 2 i) = 2) ∧
    popcount (romRead c 2 i) ≠ popcount (romRead c 2 (i + 1))

/-- No edge changes the ROM's contents or a parameter, whatever the command, reset or input (20_memory.md R65). -/
def Obligations.NoEdgeWritesTheRom : Prop :=
  ∀ s t : State, step s = .next t → t.config = s.config

/-! ## The motion commands -/

/-- A motion command with step count n is the motion dispatch of n: n = 0 answers (0, 0) at once with no write and no other
change; any other n starts a run with its first write, counter, direction, writes left and timer as start_run says, and
nothing else changes (40_motion.md R100, R101). For STEP the count is its operand n, any 32-bit value (R110); the
statements below give the counts of the other four in the spec's own numbers. -/
def Obligations.MotionCommandsDispatchTheirStepCount : Prop :=
  ∀ (i : Instr) (n : Int) (s : State), i.WellFormed → s.config.Admissible → 1 ≤ s32 s.stepDelay →
    i.motionSteps s.driveMethod = some n → ∃ t, exec i s = .next t ∧ Dispatched n s t

/-- QUARTER q dispatches n, the value in −2^31..2^31−1 congruent modulo 2^32 to 1024·q under HALF_STEP and to 512·q
otherwise (41_conversion.md R131). -/
def Obligations.QuarterDispatchesKTimesQ : Prop :=
  ∀ (q : Int) (s : State), InS32 q → s.config.Admissible → 1 ≤ s32 s.stepDelay →
    ∃ n t, InS32 n ∧ n ≡ (if s.driveMethod = 2 then 1024 else 512) * q [ZMOD 2 ^ 32] ∧
      exec (.quarter q) s = .next t ∧ Dispatched n s t

/-- HALF h dispatches n = wrap32(Kq·q') with q' = wrap32(2·h) (41_conversion.md R133). -/
def Obligations.HalfDispatchesKTimesTwoH : Prop :=
  ∀ (h : Int) (s : State), InS32 h → s.config.Admissible → 1 ≤ s32 s.stepDelay →
    ∃ q n t, InS32 q ∧ q ≡ 2 * h [ZMOD 2 ^ 32] ∧
      InS32 n ∧ n ≡ (if s.driveMethod = 2 then 1024 else 512) * q [ZMOD 2 ^ 32] ∧
      exec (.half h) s = .next t ∧ Dispatched n s t

/-- FULL f dispatches n = wrap32(Kq·q') with h' = wrap32(2·f) and q' = wrap32(2·h') (41_conversion.md R135). -/
def Obligations.FullDispatchesKTimesFourF : Prop :=
  ∀ (f : Int) (s : State), InS32 f → s.config.Admissible → 1 ≤ s32 s.stepDelay →
    ∃ h q n t, InS32 h ∧ h ≡ 2 * f [ZMOD 2 ^ 32] ∧ InS32 q ∧ q ≡ 2 * h [ZMOD 2 ^ 32] ∧
      InS32 n ∧ n ≡ (if s.driveMethod = 2 then 1024 else 512) * q [ZMOD 2 ^ 32] ∧
      exec (.full f) s = .next t ∧ Dispatched n s t

/-- HALF h is QUARTER wrap32(2h), and FULL f is both QUARTER wrap32(4f) and HALF wrap32(2f), in every effect
(41_conversion.md R134 and R136, which the spec marks as derived). -/
def Obligations.HalfAndFullAreQuarters : Prop :=
  ∀ (x : Int) (s : State),
    exec (.half x) s = exec (.quarter (wrap32 (2 * x))) s ∧
    exec (.full x) s = exec (.quarter (wrap32 (4 * x))) s ∧
    exec (.full x) s = exec (.half (wrap32 (2 * x))) s

/-- The rotation products Kq·q, 2·Kq·h and 4·Kq·f are reduced modulo 2^32 into −2^31..2^31−1, and the step count is the
exact product exactly within the asymmetric bounds of 41_conversion.md R144. -/
def Obligations.RotationProductsWrapOutsideTheirBounds : Prop :=
  ∀ (m : Method) (x : Int), m ≠ 3 → ∀ k : Int, k = (if m = 2 then 1024 else 512) →
    (InS32 (quarterSteps m x) ∧ quarterSteps m x ≡ k * x [ZMOD 2 ^ 32] ∧
      (quarterSteps m x = k * x ↔
        if m = 2 then -(2 ^ 21) ≤ x ∧ x < 2 ^ 21 else -(2 ^ 22) ≤ x ∧ x < 2 ^ 22)) ∧
    (InS32 (halfSteps m x) ∧ halfSteps m x ≡ 2 * k * x [ZMOD 2 ^ 32] ∧
      (halfSteps m x = 2 * k * x ↔
        if m = 2 then -(2 ^ 20) ≤ x ∧ x < 2 ^ 20 else -(2 ^ 21) ≤ x ∧ x < 2 ^ 21)) ∧
    (InS32 (fullSteps m x) ∧ fullSteps m x ≡ 4 * k * x [ZMOD 2 ^ 32] ∧
      (fullSteps m x = 4 * k * x ↔
        if m = 2 then -(2 ^ 19) ≤ x ∧ x < 2 ^ 19 else -(2 ^ 20) ≤ x ∧ x < 2 ^ 20))

/-- QUARTER, HALF and FULL ask for a multiple of 8 steps, wrapped or not (41_conversion.md R143, marked derived there). -/
def Obligations.RotationCountsAreMultiplesOfEight : Prop :=
  ∀ (m : Method) (x : Int), 8 ∣ quarterSteps m x ∧ 8 ∣ halfSteps m x ∧ 8 ∣ fullSteps m x

/-! ## ANGLE -/

/-- ANGLE a dispatches the count of 41_conversion.md R137: with K = 4096 under HALF_STEP and 2048 otherwise, NaN gives 0,
+∞ and every K·angle ≥ 2^31 give 5965232, −∞ and every K·angle ≤ −2^31 give −5965232, and any other angle truncates
K·angle toward zero and then divides by 360 toward zero. It rests on the binary32 layout, the product and the narrowing
of R139 to R141, parts of which the spec marks "[from general knowledge, not in source]" (log entry 10). -/
def Obligations.AngleDispatchesTheTruncatedQuotient : Prop :=
  ∀ (a : Binary32) (s : State), s.config.Admissible → 1 ≤ s32 s.stepDelay →
    ∃ n t, exec (.angle a) s = .next t ∧ Dispatched n s t ∧
      let p : ℚ := (if s.driveMethod = 2 then 4096 else 2048) * a.real;
      (a.exponent = 255 ∧ a.fraction ≠ 0 → n = 0) ∧
      (a.exponent = 255 ∧ a.fraction = 0 ∧ a.sign = 0 → n = 5965232) ∧
      (a.exponent = 255 ∧ a.fraction = 0 ∧ a.sign = 1 → n = -5965232) ∧
      (a.exponent ≠ 255 ∧ 2 ^ 31 ≤ p → n = 5965232) ∧
      (a.exponent ≠ 255 ∧ p ≤ -(2 ^ 31) → n = -5965232) ∧
      (a.exponent ≠ 255 ∧ -(2 ^ 31) < p ∧ p < 2 ^ 31 → n = (truncRat p).tdiv 360)

/-- Truncating before the division loses nothing: below saturation ANGLE's count is the exact quotient K·angle/360 rounded
toward zero (41_conversion.md R142, marked derived there). -/
def Obligations.AngleCountIsTheExactQuotientTowardZero : Prop :=
  ∀ (m : Method) (a : Binary32), a.exponent ≠ 255 →
    let p : ℚ := (if m = 2 then 4096 else 2048) * a.real;
    -(2 ^ 31) < p → p < 2 ^ 31 → angleSteps m a = truncRat (p / 360)

/-- Every angle, NaN and ±∞ included, asks for at most 5965232 steps either way (41_conversion.md R138, marked derived
there). -/
def Obligations.AngleCountIsBounded : Prop :=
  ∀ (m : Method) (a : Binary32), -5965232 ≤ angleSteps m a ∧ angleSteps m a ≤ 5965232

/-- The product K·angle of a finite angle is exact, or ±∞ where its size exceeds (2 − 2^−23)·2^127 (41_conversion.md R140,
which the spec marks in part "[from general knowledge, not in source]", log entry 10). -/
def Obligations.AngleProductIsExactOrInfinite : Prop :=
  ∀ (m : Method) (a : Binary32), a.exponent ≠ 255 →
    let p : ℚ := (if m = 2 then 4096 else 2048) * a.real;
    let top : ℚ := (2 - (2 : ℚ) ^ (-23 : ℤ)) * (2 : ℚ) ^ (127 : ℤ);
    (top < p → (binary32Value a).scale (ka m) = .infinite false) ∧
    (p < -top → (binary32Value a).scale (ka m) = .infinite true) ∧
    (-top ≤ p ∧ p ≤ top → ∃ u : Int, (binary32Value a).scale (ka m) = .finite u ∧ (u : ℚ) / 2 ^ 149 = p)

/-! ## The configuration commands and the reserved opcodes -/

/-- SET_DELAY: ms > 0 sets STEP_DELAY to ms and answers (0, 0); ms ≤ 0 changes nothing and answers (1, 0). Nothing else
changes (42_config.md R150, R151). -/
def Obligations.SetDelaySetsOrRejects : Prop :=
  ∀ (ms : Int) (s : State), InS32 ms →
    ∃ t, exec (.setDelay ms) s = .next t ∧
      (0 < ms → Answers 0 0 s t ∧ s32 t.stepDelay = ms ∧ t.driveMethod = s.driveMethod ∧ t.config = s.config ∧
        t.port = s.port) ∧
      (ms ≤ 0 → Answers 1 0 s t ∧ SameSettings s t)

/-- GET_DELAY answers (0, STEP_DELAY), whatever its arg, and changes nothing else; the data is in 1..2^31−1 where STEP_DELAY
is legal (42_config.md R152, 30_encoding.md R77). -/
def Obligations.GetDelayReadsTheDelay : Prop :=
  ∀ (v : Word) (s : State),
    ∃ t, exec (.getDelay v) s = .next t ∧ Answers 0 s.stepDelay s t ∧ SameSettings s t ∧
      (1 ≤ s32 s.stepDelay → 1 ≤ s32 t.rspData ∧ s32 t.rspData ≤ 2 ^ 31 - 1)

/-- SET_METHOD: m ≤ 2 sets DRIVE_METHOD to m and answers (0, 0); m > 2 changes nothing and answers (1, 0). Nothing else
changes (42_config.md R153, R154). -/
def Obligations.SetMethodSetsOrRejects : Prop :=
  ∀ (m : Nat) (s : State), m < 2 ^ 32 →
    ∃ t, exec (.setMethod m) s = .next t ∧
      (m ≤ 2 → Answers 0 0 s t ∧ t.driveMethod.toNat = m ∧ t.stepDelay = s.stepDelay ∧ t.config = s.config ∧
        t.port = s.port) ∧
      (2 < m → Answers 1 0 s t ∧ SameSettings s t)

/-- GET_METHOD answers (0, DRIVE_METHOD zero-extended), whatever its arg, and changes nothing else; the data is 0, 1 or 2
where DRIVE_METHOD is legal (42_config.md R156, 30_encoding.md R77). -/
def Obligations.GetMethodReadsTheMethod : Prop :=
  ∀ (v : Word) (s : State),
    ∃ t, exec (.getMethod v) s = .next t ∧ t.rspData.toNat = s.driveMethod.toNat ∧ Answers 0 t.rspData s t ∧
      SameSettings s t ∧ (s.driveMethod ≠ 3 → t.rspData.toNat ≤ 2)

/-- Each of the seven reserved opcodes answers (2, 0), whatever its arg, and changes nothing else (42_config.md R158,
60_exceptions.md R172). -/
def Obligations.ReservedOpcodesAnswerIllegalCommand : Prop :=
  ∀ (v : Word) (s : State) (i : Instr),
    i ∈ [.reserved0 v, .reservedA v, .reservedB v, .reservedC v, .reservedD v, .reservedE v, .reservedF v] →
      ∃ t, exec i s = .next t ∧ Answers 2 0 s t ∧ SameSettings s t

/-- DRIVE_METHOD holds only the last value accepted: after SET_METHOD a and SET_METHOD b, GET_METHOD answers b
(42_config.md R155, marked derived there). -/
def Obligations.LastSetMethodWins : Prop :=
  ∀ (a b : Nat) (v : Word) (s : State), a ≤ 2 → b ≤ 2 →
    ∃ t u r, exec (.setMethod a) s = .next t ∧ exec (.setMethod b) t = .next u ∧
      exec (.getMethod v) u = .next r ∧ r.rspValid = true ∧ r.rspStatus = 0 ∧ r.rspData.toNat = b

/-- GET_DELAY after SET_DELAY ms answers ms where ms was accepted, and the delay held before where it was rejected
(42_config.md R151, R152; 70_reset_and_hazards.md R199, marked derived there). -/
def Obligations.GetDelayReadsTheLastAcceptedDelay : Prop :=
  ∀ (ms : Int) (v : Word) (s : State), InS32 ms →
    ∃ t u, exec (.setDelay ms) s = .next t ∧ exec (.getDelay v) t = .next u ∧
      u.rspValid = true ∧ u.rspStatus = 0 ∧ s32 u.rspData = if 0 < ms then ms else s32 s.stepDelay

/-- A failing command changes no state except the response registers and coil_wr (60_exceptions.md R170). -/
def Obligations.FailingCommandsChangeNothingElse : Prop :=
  ∀ (i : Instr) (s t : State), exec i s = .next t → t.rspValid = true → t.rspStatus ≠ 0 →
    t = { s with rspValid := true, rspStatus := t.rspStatus, rspData := 0, coilWr := false }

/-- Which status a command's answer carries: 1 from SET_DELAY with ms ≤ 0 and SET_METHOD with m > 2, 2 from the reserved
opcodes, 0 from every other, and never 3 (30_encoding.md R79). -/
def Obligations.StatusCodesOfTheCommands : Prop :=
  ∀ (i : Instr) (s t : State), exec i s = .next t → t.rspValid = true →
    (t.rspStatus = 1 ↔ (∃ ms, i = .setDelay ms ∧ ms ≤ 0) ∨ ∃ m, i = .setMethod m ∧ 2 < m) ∧
    (t.rspStatus = 2 ↔ i.isReserved = true) ∧ t.rspStatus ≠ 3

/-- The four accessors have no effect beyond the register each one names, the response registers and the pulse coil_wr, which
every edge without a write clears: none writes coil or starts a run, and the two GETs change the response registers only
(42_config.md R157). -/
def Obligations.AccessorsHaveNoOtherEffect : Prop :=
  ∀ (s t : State) (ms : Int) (m : Nat) (v : Word),
    (exec (.setDelay ms) s = .next t → t = { s with
      stepDelay := t.stepDelay, rspValid := t.rspValid, rspStatus := t.rspStatus, rspData := t.rspData, coilWr := false }) ∧
    (exec (.setMethod m) s = .next t → t = { s with
      driveMethod := t.driveMethod, rspValid := t.rspValid, rspStatus := t.rspStatus, rspData := t.rspData,
      coilWr := false }) ∧
    (exec (.getDelay v) s = .next t ∨ exec (.getMethod v) s = .next t →
      t = { s with rspValid := t.rspValid, rspStatus := t.rspStatus, rspData := t.rspData, coilWr := false })

/-- The command classes: accepted in IDLE, a command whose step count is none or 0 answers at its acceptance edge, and st
stays IDLE; a motion command with n ≠ 0 starts a run and is not answered there (30_encoding.md R75). -/
def Obligations.CommandsAnswerAtOnceOrStartARun : Prop :=
  ∀ (i : Instr) (s : State), s.st = .idle →
    ∃ t, exec i s = .next t ∧
      (i.motionSteps s.driveMethod = none ∨ i.motionSteps s.driveMethod = some 0 →
        t.st = .idle ∧ t.rspValid = true ∧ t.coilWr = false ∧ cmdReady false t = true) ∧
      (∀ n, i.motionSteps s.driveMethod = some n → n ≠ 0 →
        t.st = .run ∧ t.rspValid = false ∧ t.coilWr = true ∧ cmdReady false t = false)

/-! ## The run -/

/-- The run step at an edge with st = RUN and rst = 0, in its three cases. The timer counts down with no write; or it is 0
and the next write is made with the counter one lower (FWD) or one higher (REV), one write less left and the timer
loaded again (where one lower than 0 or one higher than 2^32 − 1 is asked for, which no run after a reset does by R108, the
counter's new value is left open, log entry 13); or no write is left either and the run ends: st is IDLE, the response is (0, nres), and coil, dir, ctr,
left and tmr keep their values (40_motion.md R103, R104). -/
def Obligations.RunStepCountsDownWritesOrEnds : Prop :=
  ∀ s : State, s.config.Admissible → 1 ≤ s32 s.stepDelay → s.st = .run → s.pins.rst = false →
    (s.tmr ≠ 0 → ∃ t, step s = .next t ∧ t.tmr = s.tmr - 1 ∧ t.coilWr = false ∧ t.rspValid = false ∧
      t.coil = s.coil ∧ t.st = .run ∧ t.dir = s.dir ∧ t.ctr = s.ctr ∧ t.left = s.left ∧ t.nres = s.nres ∧
      t.rspStatus = s.rspStatus ∧ t.rspData = s.rspData ∧ SameSettings { s with port := s.port.tail } t) ∧
    (s.tmr = 0 → s.left ≠ 0 → ∃ t, step s = .next t ∧
      (s.dir = .fwd → 1 ≤ s.ctr.toNat → t.ctr.toNat = s.ctr.toNat - 1) ∧
      (s.dir = .rev → s.ctr.toNat + 1 < 2 ^ 32 → t.ctr.toNat = s.ctr.toNat + 1) ∧
      t.left.toNat = s.left.toNat - 1 ∧
      t.coil = romRead s.config s.driveMethod (rowOf t.ctr.toNat) ∧ t.coilWr = true ∧
      (t.tmr : Int) = s32 s.stepDelay * s.config.ticksPerMs - 1 ∧ t.rspValid = false ∧
      t.st = .run ∧ t.dir = s.dir ∧ t.nres = s.nres ∧
      t.rspStatus = s.rspStatus ∧ t.rspData = s.rspData ∧ SameSettings { s with port := s.port.tail } t) ∧
    (s.tmr = 0 → s.left = 0 → ∃ t, step s = .next t ∧ t.st = .idle ∧ t.coilWr = false ∧
      t.rspValid = true ∧ t.rspStatus = 0 ∧ t.rspData = s.nres ∧
      t.coil = s.coil ∧ t.dir = s.dir ∧ t.ctr = s.ctr ∧ t.left = s.left ∧ t.tmr = s.tmr ∧ t.nres = s.nres ∧
      SameSettings { s with port := s.port.tail } t)

/-- HEADLINE. The whole course of a run of n ≠ 0 steps accepted at edge a, up to the edge before its response: at edge a + j,
j < abs(n)·D·T, a write happens exactly when D·T divides j; coil holds the row of write j/(D·T) + 1, whose counter is
n − j/(D·T) forward and j/(D·T) in reverse; the machine is busy, has not answered, and its settings are the ones at
acceptance (40_motion.md R102, R105, R106, R107; R105 to R107 are marked derived there). -/
def Obligations.RunWritesItsRowsOnSchedule : Prop :=
  ∀ (s : State) (n : Int) (j : Nat), n ≠ 0 → AcceptsMotion n j s → j < n.natAbs * s.period →
    ∃ t, s.after (j + 1) = .next t ∧
      (t.coilWr = true ↔ s.period ∣ j) ∧
      t.coil = romRead s.config s.driveMethod (rowOf (writeCounter n (j / s.period))) ∧
      busy t = true ∧ cmdReady false t = false ∧ t.rspValid = false ∧
      t.driveMethod = s.driveMethod ∧ t.stepDelay = s.stepDelay ∧ t.config = s.config

/-- HEADLINE. A run of n ≠ 0 steps accepted at edge a answers (0, bits32(n)) at edge a + abs(n)·D·T; there st is IDLE, no
coil is written, and coil holds the run's last row, 1 forward and (abs(n) − 1) mod 8 in reverse (40_motion.md R104, R105,
R114; R105 and R114 are marked derived there). -/
def Obligations.RunAnswersAfterItsFullTime : Prop :=
  ∀ (s : State) (n : Int), n ≠ 0 → AcceptsMotion n (n.natAbs * s.period) s →
    ∃ t, s.after (n.natAbs * s.period + 1) = .next t ∧
      t.st = .idle ∧ cmdReady false t = true ∧ t.coilWr = false ∧
      t.rspValid = true ∧ t.rspStatus = 0 ∧ s32 t.rspData = n ∧
      t.coil = romRead s.config s.driveMethod (if 0 < n then 1 else rowOf (n.natAbs - 1)) ∧
      t.driveMethod = s.driveMethod ∧ t.stepDelay = s.stepDelay ∧ t.config = s.config

/-- The step counter never wraps: at a write in a run, forward it goes down from a value above 1 and stays in 1..n, in
reverse it goes up by 1 and stays below abs(n) (40_motion.md R108, marked derived there). -/
def Obligations.CounterNeverWraps : Prop :=
  ∀ s t : State, s.Inv → s.st = .run → s.pins.rst = false → step s = .next t → t.st = .run → t.coilWr = true →
    (s.dir = .fwd → 1 < s.ctr.toNat ∧ t.ctr.toNat = s.ctr.toNat - 1 ∧ 1 ≤ t.ctr.toNat ∧
      (t.ctr.toNat : Int) ≤ s32 t.nres) ∧
    (s.dir = .rev → s.ctr.toNat < 2 ^ 31 - 1 ∧ t.ctr.toNat = s.ctr.toNat + 1 ∧ t.ctr.toNat < (s32 t.nres).natAbs)

/-! ## The whole machine -/

/-- HEADLINE. Every edge keeps the invariant of the machine. -/
def Obligations.EveryEdgeKeepsTheInvariant : Prop :=
  ∀ s t : State, s.Inv → step s = .next t → t.Inv

/-- The invariant holds right after reset, under every admissible configuration and so under the model's own (its choice,
log entry 4). -/
def Obligations.ResetMeetsTheInvariant : Prop :=
  (∀ c : Config, c.Admissible → (State.resetOf c).Inv) ∧ State.reset.Inv

/-- Under an admissible configuration no state stops the machine, reachable or not: every edge gives a next state
(60_exceptions.md R170: STEPSEQ has no traps). -/
def Obligations.NoEdgeStopsTheMachine : Prop :=
  ∀ s : State, s.config.Admissible → ∃ t, step s = .next t

/-- DRIVE_METHOD changes only at a reset edge or by an accepted SET_METHOD with m ≤ 2, which makes it m; so an edge never
makes it 3 (10_state.md R23). -/
def Obligations.OnlySetMethodAndResetWriteTheMethod : Prop :=
  ∀ s t : State, step s = .next t →
    (s.pins.rst = true ∧ t.driveMethod.toNat = s.config.resetMethod) ∨
    (s.pins.rst = false ∧ s.pins.cmdValid = true ∧ s.st = .idle ∧
      ∃ m, decode s.pins.cmdWord = .setMethod m ∧ m ≤ 2 ∧ t.driveMethod.toNat = m) ∨
    (s.pins.rst = false ∧ t.driveMethod = s.driveMethod)

/-- STEP_DELAY changes only at a reset edge or by an accepted SET_DELAY with ms > 0, which makes it ms; so an edge never
makes it 0 or negative (10_state.md R24). -/
def Obligations.OnlySetDelayAndResetWriteTheDelay : Prop :=
  ∀ s t : State, step s = .next t →
    (s.pins.rst = true ∧ s32 t.stepDelay = s.config.resetDelayMs ∧ 1 ≤ s32 t.stepDelay) ∨
    (s.pins.rst = false ∧ s.pins.cmdValid = true ∧ s.st = .idle ∧
      ∃ ms, decode s.pins.cmdWord = .setDelay ms ∧ 0 < ms ∧ s32 t.stepDelay = ms) ∨
    (s.pins.rst = false ∧ t.stepDelay = s.stepDelay)

/-- coil_wr is 1 after an edge exactly when a write is made at it: without reset, an accepted motion command with n ≠ 0, or
a run with its timer at 0 and a write left; every other edge clears it. And without reset coil keeps its value at every
edge without a write (10_state.md R27, R26; R26 is marked derived there). -/
def Obligations.CoilWritesAreExactlyThePulses : Prop :=
  ∀ s t : State, step s = .next t →
    (t.coilWr = true ↔ s.pins.rst = false ∧
      ((s.st = .idle ∧ s.pins.cmdValid = true ∧
        ∃ n, (decode s.pins.cmdWord).motionSteps s.driveMethod = some n ∧ n ≠ 0) ∨
      (s.st = .run ∧ s.tmr = 0 ∧ s.left ≠ 0))) ∧
    (s.pins.rst = false → t.coilWr = false → t.coil = s.coil)

/-- Once per command. Without reset: an edge without a response keeps rsp_status and rsp_data; a response appears exactly at
an accepted command that is answered at once, or at the end of a run; the edge of a response leaves st = IDLE, so the next
response needs a new command; and st = RUN comes exactly from an accepted motion command with n ≠ 0, and lasts up to the
run's response (10_state.md R28, R34, 30_encoding.md R78, R80). -/
def Obligations.ResponsesComeOncePerCommand : Prop :=
  ∀ s t : State, s.pins.rst = false → step s = .next t →
    (t.rspValid = false → t.rspStatus = s.rspStatus ∧ t.rspData = s.rspData) ∧
    (t.rspValid = true ↔
      (s.st = .idle ∧ s.pins.cmdValid = true ∧
        ((decode s.pins.cmdWord).motionSteps s.driveMethod = none ∨
          (decode s.pins.cmdWord).motionSteps s.driveMethod = some 0)) ∨
      (s.st = .run ∧ s.tmr = 0 ∧ s.left = 0)) ∧
    (t.rspValid = true → t.st = .idle) ∧
    (t.st = .run ↔
      (s.st = .idle ∧ s.pins.cmdValid = true ∧
        ∃ n, (decode s.pins.cmdWord).motionSteps s.driveMethod = some n ∧ n ≠ 0) ∨
      (s.st = .run ∧ ¬ (s.tmr = 0 ∧ s.left = 0)))

/-- During a run, at an edge without reset, cmd_valid and cmd_word have no effect at all: whatever other levels they have, the
step gives the same state; and DRIVE_METHOD, STEP_DELAY, the run's direction and its step count stay as they are
(10_state.md R25, 70_reset_and_hazards.md R196; R25 is marked derived there). -/
def Obligations.NoCommandDisturbsARun : Prop :=
  ∀ s t : State, s.st = .run → s.pins.rst = false → step s = .next t →
    (∀ (v : Bool) (w : CommandWord), step { s with port := ⟨false, v, w⟩ :: s.port.tail } = .next t) ∧
    t.driveMethod = s.driveMethod ∧ t.stepDelay = s.stepDelay ∧ t.dir = s.dir ∧ t.nres = s.nres

/-- No phase is carried from one command to the next: two states that differ only in the run registers of an idle machine
show the same outputs and settings after any number of edges (10_state.md R37). -/
def Obligations.NoPhaseIsCarriedBetweenCommands : Prop :=
  ∀ (k : Nat) (s t s' : State), SameOutside s t → s.after k = .next s' →
    ∃ t', t.after k = .next t' ∧ SameOutside s' t'

/-- In IDLE, an edge without reset and without a command ends the two pulses and changes nothing else: st, the run registers,
the settings, coil and the last response stay as they are (10_state.md R26, R27, R34). -/
def Obligations.IdleEdgeWithoutACommandOnlyEndsThePulses : Prop :=
  ∀ s : State, s.config.Admissible → s.st = .idle → s.pins.rst = false → s.pins.cmdValid = false →
    step s = .next { s with port := s.port.tail, coilWr := false, rspValid := false }
end

