-- ==== Sys2Proof/Laws/Bits.lean ====
section
/-! SUPPORT. The readings of 00_scope.md R10 and the row index, in terms of integers. -/

namespace Sys2Proof.Machine

theorem s32_range (v : Word) : InS32 (s32 v) := by
  have h1 := BitVec.le_toInt v
  have h2 := BitVec.toInt_lt (x := v)
  simp only [s32, InS32]
  omega

theorem s32_bits32 {x : Int} (h : InS32 x) : s32 (bits32 x) = x := by
  simp only [s32, bits32, BitVec.toInt_ofInt]
  exact Int.bmod_eq_of_le (by norm_num; exact h.1) (by norm_num; exact h.2)

@[simp] theorem bits32_s32 (v : Word) : bits32 (s32 v) = v := by simp [s32, bits32]

theorem bits32_toNat_of_nonneg {x : Int} (h0 : 0 ≤ x) (h : InS32 x) : ((bits32 x).toNat : Int) = x := by
  simp only [bits32, BitVec.toNat_ofInt]
  have := h.2
  omega

theorem wrap32_inS32 (x : Int) : InS32 (wrap32 x) := by
  have h1 := Int.le_bmod (x := x) (m := 2 ^ 32) (by norm_num)
  have h2 := Int.bmod_lt (x := x) (m := 2 ^ 32) (by norm_num)
  simp only [wrap32, InS32]
  omega

theorem wrap32_modEq (x : Int) : wrap32 x ≡ x [ZMOD 2 ^ 32] := by
  simp only [wrap32, Int.ModEq]
  exact Int.bmod_emod

/-- wrap32 picks the one value of the range in its class. -/
theorem wrap32_unique {x y : Int} (h : InS32 y) (hxy : y ≡ x [ZMOD 2 ^ 32]) : wrap32 x = y := by
  have h1 := wrap32_inS32 x
  have h2 := (wrap32_modEq x).trans hxy.symm
  simp only [InS32, Int.ModEq] at *
  omega

theorem wrap32_eq_iff {x : Int} : wrap32 x = x ↔ InS32 x :=
  ⟨fun h => h ▸ wrap32_inS32 x, fun h => wrap32_unique h rfl⟩

theorem wrap32_mul_wrap32 (k x : Int) : wrap32 (k * wrap32 x) = wrap32 (k * x) :=
  wrap32_unique (wrap32_inS32 _) ((wrap32_modEq _).trans ((wrap32_modEq x).symm.mul_left k))

/-- The low three bits of a counter are the counter modulo 8 (10_state.md R30). -/
theorem rowIndex_eq_rowOf (v : Word) : rowIndex v = rowOf v.toNat := by
  apply BitVec.eq_of_toNat_eq
  simp [rowIndex, rowOf]

theorem toNat_ne_zero {v : Word} (h : v ≠ 0) : v.toNat ≠ 0 :=
  fun h0 => h (BitVec.eq_of_toNat_eq (by simpa using h0))

theorem toNat_sub_one {v : Word} (h : v.toNat ≠ 0) : (v - 1).toNat = v.toNat - 1 := by
  have := v.isLt
  simp
  omega

theorem toNat_add_one {v : Word} (h : v.toNat + 1 < 2 ^ 32) : (v + 1).toNat = v.toNat + 1 := by
  simp
  omega

end Sys2Proof.Machine
end

