-- ==== Sys2Proof/Laws/Convert.lean ====
section
/-! SUPPORT. The unit converter in closed form, and a finite angle's exact value as a rational. -/

namespace Sys2Proof.Machine

/-! ### The constants and the rotations -/

theorem kq_eq (m : Method) : kq m = if m = 2 then 1024 else 512 := rfl

theorem ka_eq (m : Method) : ka m = if m = 2 then 4096 else 2048 := rfl

theorem quarterSteps_inS32 (m : Method) (q : Int) : InS32 (quarterSteps m q) := wrap32_inS32 _

theorem quarterSteps_modEq (m : Method) (q : Int) : quarterSteps m q ≡ kq m * q [ZMOD 2 ^ 32] := wrap32_modEq _

/-- The two wraps of HALF come to one (41_conversion.md R134). -/
theorem halfSteps_eq (m : Method) (h : Int) : halfSteps m h = wrap32 (2 * kq m * h) := by
  simp only [halfSteps, quarterSteps, wrap32_mul_wrap32]
  congr 1
  ring

/-- The three wraps of FULL come to one (41_conversion.md R136). -/
theorem fullSteps_eq (m : Method) (f : Int) : fullSteps m f = wrap32 (4 * kq m * f) := by
  simp only [fullSteps, halfSteps_eq, wrap32_mul_wrap32]
  congr 1
  ring

/-! ### Division toward zero -/

theorem tdiv_of_nonpos {v : Int} (hv : v ≤ 0) (d : Int) : v.tdiv d = -((-v) / d) := by
  rw [← Int.tdiv_eq_ediv_of_nonneg (by omega)]
  simp

theorem floor_intDiv (v : Int) {d : Int} (hd : 0 < d) : ⌊(v : ℚ) / d⌋ = v / d := by
  have hdq : (0 : ℚ) < d := by exact_mod_cast hd
  rw [Int.floor_eq_iff, le_div_iff₀ hdq, div_lt_iff₀ hdq]
  norm_cast
  exact ⟨Int.ediv_mul_le v hd.ne', Int.lt_ediv_add_one_mul_self v hd⟩

/-- `trunc` of a quotient of integers is division toward zero (00_scope.md R10). -/
theorem truncRat_intDiv (v : Int) {d : Int} (hd : 0 < d) : truncRat ((v : ℚ) / d) = v.tdiv d := by
  have hdq : (0 : ℚ) < d := by exact_mod_cast hd
  have hs : 0 ≤ (v : ℚ) / d ↔ 0 ≤ v := by
    rw [le_div_iff₀ hdq]
    simp
  simp only [truncRat, hs]
  split
  · next hv => rw [Int.tdiv_eq_ediv_of_nonneg hv, floor_intDiv _ hd]
  · next hv =>
    rw [tdiv_of_nonpos (by omega), ← floor_intDiv (-v) hd]
    push_cast
    rw [neg_div, Int.floor_neg, neg_neg]

theorem tdiv_tdiv_of_pos (v : Int) {a b : Int} (ha : 0 < a) : (v.tdiv a).tdiv b = v.tdiv (a * b) := by
  have key : ∀ w : Int, 0 ≤ w → (w.tdiv a).tdiv b = w.tdiv (a * b) := by
    intro w hw
    rw [Int.tdiv_eq_ediv_of_nonneg hw, Int.tdiv_eq_ediv_of_nonneg (Int.ediv_nonneg hw ha.le),
      Int.tdiv_eq_ediv_of_nonneg hw, Int.ediv_ediv_of_nonneg ha.le]
  rcases le_total 0 v with h | h
  · exact key v h
  · simpa [Int.neg_tdiv] using key (-v) (by omega)

/-! ### Angles -/

theorem F32.f2i_range (x : F32) : -(2 ^ 31) ≤ x.f2i ∧ x.f2i ≤ 2 ^ 31 - 1 := by
  cases x with
  | nan => simp [F32.f2i]
  | infinite b => cases b <;> simp [F32.f2i]
  | finite u =>
    simp only [F32.f2i, quot]
    split
    · norm_num
    · split
      · norm_num
      · rcases le_total 0 u with h | h
        · rw [Int.tdiv_eq_ediv_of_nonneg h]
          omega
        · rw [tdiv_of_nonpos h]
          omega

theorem angleSteps_inS32 (m : Method) (a : Binary32) : InS32 (angleSteps m a) := by
  have h := F32.f2i_range ((binary32Value a).scale (ka m))
  simp only [angleSteps, angleTicks, quot, InS32]
  generalize ((binary32Value a).scale (ka m)).f2i = t at h
  rcases le_total 0 t with h0 | h0
  · rw [Int.tdiv_eq_ediv_of_nonneg h0]
    omega
  · rw [tdiv_of_nonpos h0]
    omega

/-- The units of a binary32 are its real value in 2^−149ths (41_conversion.md R139). -/
theorem real_eq_units (a : Binary32) :
    a.real = (if a.sign = 1 then -(binary32Units a : ℚ) else binary32Units a) / 2 ^ 149 := by
  have hm : (if a.exponent = 0 then (2 : ℚ) ^ (-126 : ℤ) * (a.fraction.toNat / 2 ^ 23)
      else (2 : ℚ) ^ ((a.exponent.toNat : ℤ) - 127) * (1 + a.fraction.toNat / 2 ^ 23)) =
        (binary32Units a : ℚ) / 2 ^ 149 := by
    simp only [binary32Units]
    split
    · norm_num
      ring
    · next h =>
      have hE : 1 ≤ a.exponent.toNat := by
        rcases Nat.eq_zero_or_pos a.exponent.toNat with h0 | h0
        · exact absurd (BitVec.eq_of_toNat_eq (by simpa using h0)) h
        · exact h0
      obtain ⟨e, he⟩ : ∃ e, a.exponent.toNat = e + 1 := ⟨_, (Nat.sub_add_cancel hE).symm⟩
      rw [he]
      push_cast
      rw [show ((e : ℤ) + 1 - 127) = e + (-126) by ring, zpow_add₀ (by norm_num), zpow_natCast]
      norm_num
      ring
  have hs : ∀ b : BitVec 1, b = 0 ∨ b = 1 := by decide
  simp only [Binary32.real, hm]
  rcases hs a.sign with h | h <;> simp [h]
  ring

/-- A finite angle is held exactly (log entry 10). -/
theorem value_finite {a : Binary32} (h : a.exponent ≠ 255) :
    ∃ u : Int, binary32Value a = .finite u ∧ a.real = u / 2 ^ 149 := by
  refine ⟨if a.sign = 1 then -(binary32Units a : Int) else binary32Units a, by simp only [binary32Value, if_neg h], ?_⟩
  rw [real_eq_units]
  split <;> simp

/-- Every step count of a well-formed motion command is a 32-bit integer. -/
theorem motionSteps_inS32 {i : Instr} {m : Method} {n : Int} (hw : i.WellFormed) (h : i.motionSteps m = some n) :
    InS32 n := by
  cases i <;> simp only [Instr.motionSteps, Option.some.injEq, reduceCtorEq] at h <;> subst h
  case step => exact of_decide_eq_true hw
  case quarter q => exact wrap32_inS32 _
  case half h => exact wrap32_inS32 _
  case full f => exact wrap32_inS32 _
  case angle a => exact angleSteps_inS32 m a

end Sys2Proof.Machine
end

