-- ==== Sys2Proof/Laws/Decode.lean ====
section
/-! SUPPORT. The fields of an encoded command, and the two readings of a binary32 operand as inverses. -/

namespace Sys2Proof

open Machine

/-- Bit i of a command word put together from its fields (30_encoding.md R72). -/
theorem append_getLsbD (op : Opcode) (arg : Word) (i : Nat) :
    (op ++ arg : CommandWord).getLsbD i = if i < 32 then arg.getLsbD i else op.getLsbD (i - 32) :=
  BitVec.getLsbD_append

@[simp] theorem opField_append (op : Opcode) (arg : Word) : opField (op ++ arg) = op := by
  apply BitVec.eq_of_getLsbD_eq
  intro i hi
  simp only [opField, BitVec.getLsbD_extractLsb', append_getLsbD]
  have : ¬ 32 + i < 32 := by omega
  simp [this, hi]

@[simp] theorem argField_append (op : Opcode) (arg : Word) : argField (op ++ arg) = arg := by
  apply BitVec.eq_of_getLsbD_eq
  intro i hi
  simp only [argField, BitVec.getLsbD_extractLsb', append_getLsbD]
  simp [hi]

/-- A command word is its two fields (30_encoding.md R72). -/
theorem append_fields (w : CommandWord) : (opField w ++ argField w : CommandWord) = w := by
  apply BitVec.eq_of_getLsbD_eq
  intro i hi
  rw [append_getLsbD]
  by_cases h : i < 32
  · simp only [argField, BitVec.getLsbD_extractLsb', h]
    simp
  · have : i - 32 < 4 := by omega
    have h2 : 32 + (i - 32) = i := by omega
    simp [opField, h, this, h2]

/-- Bit i of a binary32 operand put together from its fields (41_conversion.md R139). -/
theorem Binary32.bits_getLsbD (a : Binary32) (i : Nat) :
    a.bits.getLsbD i =
      if i < 23 then a.fraction.getLsbD i
      else if i - 23 < 8 then a.exponent.getLsbD (i - 23) else a.sign.getLsbD (i - 23 - 8) := by
  have h : a.bits.getLsbD i = _ := BitVec.getLsbD_append (x := a.sign ++ a.exponent) (y := a.fraction)
  rw [h, BitVec.getLsbD_append]

theorem readBinary32_bits (a : Binary32) : readBinary32 a.bits = a := by
  have hs : (readBinary32 a.bits).sign = a.sign := by
    apply BitVec.eq_of_getLsbD_eq
    intro i hi
    have h : ¬ 31 + i < 23 := by omega
    have h1 : ¬ 31 + i - 23 < 8 := by omega
    have h2 : 31 + i - 23 - 8 = i := by omega
    simp only [readBinary32, BitVec.getLsbD_extractLsb', Binary32.bits_getLsbD]
    simp [h, h1, h2, hi]
  have he : (readBinary32 a.bits).exponent = a.exponent := by
    apply BitVec.eq_of_getLsbD_eq
    intro i hi
    have h : ¬ 23 + i < 23 := by omega
    have h2 : 23 + i - 23 = i := by omega
    simp only [readBinary32, BitVec.getLsbD_extractLsb', Binary32.bits_getLsbD]
    simp [h2, hi]
  have hf : (readBinary32 a.bits).fraction = a.fraction := by
    apply BitVec.eq_of_getLsbD_eq
    intro i hi
    simp only [readBinary32, BitVec.getLsbD_extractLsb', Binary32.bits_getLsbD]
    simp [hi]
  cases a
  cases hr : readBinary32 _
  simp_all

theorem bits_readBinary32 (v : Word) : (readBinary32 v).bits = v := by
  apply BitVec.eq_of_getLsbD_eq
  intro i hi
  simp only [Binary32.bits_getLsbD, readBinary32, BitVec.getLsbD_extractLsb']
  by_cases h : i < 23
  · simp [h]
  · by_cases h1 : i - 23 < 8
    · have : 23 + (i - 23) = i := by omega
      simp [h, h1, this]
    · have h3 : 31 + (i - 23 - 8) = i := by omega
      have h4 : i - 23 - 8 < 1 := by omega
      simp [h, h1, h3, h4]

/-- decode reads the two fields of an encoded command. -/
theorem decode_encode_fields (i : Instr) : decode (encode i) = decodeFields i.opcode i.argBits := by
  simp [decode, encode]

/-- A 4-bit opcode is one of sixteen. -/
theorem opcode_cases : ∀ o : Opcode, o = 0x0 ∨ o = 0x1 ∨ o = 0x2 ∨ o = 0x3 ∨ o = 0x4 ∨ o = 0x5 ∨ o = 0x6 ∨ o = 0x7 ∨
    o = 0x8 ∨ o = 0x9 ∨ o = 0xA ∨ o = 0xB ∨ o = 0xC ∨ o = 0xD ∨ o = 0xE ∨ o = 0xF := by decide

/-- Every operand the decoder reads is in its range (30_encoding.md R73). -/
theorem decodeFields_wellFormed (o : Opcode) (arg : Word) : (decodeFields o arg).WellFormed := by
  have hs := s32_range arg
  have hu := arg.isLt
  rcases opcode_cases o with h | h | h | h | h | h | h | h | h | h | h | h | h | h | h | h <;> subst h <;>
    first
      | rfl
      | exact decide_eq_true hs
      | exact decide_eq_true hu

end Sys2Proof
end

