-- ==== Sys2Proof/Laws/State.lean ====
section
/-! SUPPORT. One lemma for each field of State under each update, so that no later proof unfolds a record update. -/

namespace Sys2Proof.Machine

variable (s : State)

/-! ### `takePins` takes the coming edge's pins off the schedule -/

@[simp] theorem State.takePins_config : s.takePins.config = s.config := rfl
@[simp] theorem State.takePins_port : s.takePins.port = s.port.tail := rfl
@[simp] theorem State.takePins_driveMethod : s.takePins.driveMethod = s.driveMethod := rfl
@[simp] theorem State.takePins_stepDelay : s.takePins.stepDelay = s.stepDelay := rfl
@[simp] theorem State.takePins_coil : s.takePins.coil = s.coil := rfl
@[simp] theorem State.takePins_coilWr : s.takePins.coilWr = s.coilWr := rfl
@[simp] theorem State.takePins_st : s.takePins.st = s.st := rfl
@[simp] theorem State.takePins_dir : s.takePins.dir = s.dir := rfl
@[simp] theorem State.takePins_ctr : s.takePins.ctr = s.ctr := rfl
@[simp] theorem State.takePins_left : s.takePins.left = s.left := rfl
@[simp] theorem State.takePins_tmr : s.takePins.tmr = s.tmr := rfl
@[simp] theorem State.takePins_nres : s.takePins.nres = s.nres := rfl
@[simp] theorem State.takePins_rspValid : s.takePins.rspValid = s.rspValid := rfl
@[simp] theorem State.takePins_rspStatus : s.takePins.rspStatus = s.rspStatus := rfl
@[simp] theorem State.takePins_rspData : s.takePins.rspData = s.rspData := rfl

/-! ### `clearPulses` ends the two pulses -/

@[simp] theorem State.clearPulses_config : s.clearPulses.config = s.config := rfl
@[simp] theorem State.clearPulses_port : s.clearPulses.port = s.port := rfl
@[simp] theorem State.clearPulses_driveMethod : s.clearPulses.driveMethod = s.driveMethod := rfl
@[simp] theorem State.clearPulses_stepDelay : s.clearPulses.stepDelay = s.stepDelay := rfl
@[simp] theorem State.clearPulses_coil : s.clearPulses.coil = s.coil := rfl
@[simp] theorem State.clearPulses_coilWr : s.clearPulses.coilWr = false := rfl
@[simp] theorem State.clearPulses_st : s.clearPulses.st = s.st := rfl
@[simp] theorem State.clearPulses_dir : s.clearPulses.dir = s.dir := rfl
@[simp] theorem State.clearPulses_ctr : s.clearPulses.ctr = s.ctr := rfl
@[simp] theorem State.clearPulses_left : s.clearPulses.left = s.left := rfl
@[simp] theorem State.clearPulses_tmr : s.clearPulses.tmr = s.tmr := rfl
@[simp] theorem State.clearPulses_nres : s.clearPulses.nres = s.nres := rfl
@[simp] theorem State.clearPulses_rspValid : s.clearPulses.rspValid = false := rfl
@[simp] theorem State.clearPulses_rspStatus : s.clearPulses.rspStatus = s.rspStatus := rfl
@[simp] theorem State.clearPulses_rspData : s.clearPulses.rspData = s.rspData := rfl

/-! ### `respond` loads the response registers -/

@[simp] theorem State.respond_config (status : Status) (data : Word) : (s.respond status data).config = s.config := rfl
@[simp] theorem State.respond_port (status : Status) (data : Word) : (s.respond status data).port = s.port := rfl
@[simp] theorem State.respond_driveMethod (status : Status) (data : Word) : (s.respond status data).driveMethod = s.driveMethod := rfl
@[simp] theorem State.respond_stepDelay (status : Status) (data : Word) : (s.respond status data).stepDelay = s.stepDelay := rfl
@[simp] theorem State.respond_coil (status : Status) (data : Word) : (s.respond status data).coil = s.coil := rfl
@[simp] theorem State.respond_coilWr (status : Status) (data : Word) : (s.respond status data).coilWr = s.coilWr := rfl
@[simp] theorem State.respond_st (status : Status) (data : Word) : (s.respond status data).st = s.st := rfl
@[simp] theorem State.respond_dir (status : Status) (data : Word) : (s.respond status data).dir = s.dir := rfl
@[simp] theorem State.respond_ctr (status : Status) (data : Word) : (s.respond status data).ctr = s.ctr := rfl
@[simp] theorem State.respond_left (status : Status) (data : Word) : (s.respond status data).left = s.left := rfl
@[simp] theorem State.respond_tmr (status : Status) (data : Word) : (s.respond status data).tmr = s.tmr := rfl
@[simp] theorem State.respond_nres (status : Status) (data : Word) : (s.respond status data).nres = s.nres := rfl
@[simp] theorem State.respond_rspValid (status : Status) (data : Word) : (s.respond status data).rspValid = true := rfl
@[simp] theorem State.respond_rspStatus (status : Status) (data : Word) : (s.respond status data).rspStatus = status := rfl
@[simp] theorem State.respond_rspData (status : Status) (data : Word) : (s.respond status data).rspData = data := rfl

/-! ### `coilWrite` loads coil and sets coil_wr -/

@[simp] theorem State.coilWrite_config (v : Row) : (s.coilWrite v).config = s.config := rfl
@[simp] theorem State.coilWrite_port (v : Row) : (s.coilWrite v).port = s.port := rfl
@[simp] theorem State.coilWrite_driveMethod (v : Row) : (s.coilWrite v).driveMethod = s.driveMethod := rfl
@[simp] theorem State.coilWrite_stepDelay (v : Row) : (s.coilWrite v).stepDelay = s.stepDelay := rfl
@[simp] theorem State.coilWrite_coil (v : Row) : (s.coilWrite v).coil = v := rfl
@[simp] theorem State.coilWrite_coilWr (v : Row) : (s.coilWrite v).coilWr = true := rfl
@[simp] theorem State.coilWrite_st (v : Row) : (s.coilWrite v).st = s.st := rfl
@[simp] theorem State.coilWrite_dir (v : Row) : (s.coilWrite v).dir = s.dir := rfl
@[simp] theorem State.coilWrite_ctr (v : Row) : (s.coilWrite v).ctr = s.ctr := rfl
@[simp] theorem State.coilWrite_left (v : Row) : (s.coilWrite v).left = s.left := rfl
@[simp] theorem State.coilWrite_tmr (v : Row) : (s.coilWrite v).tmr = s.tmr := rfl
@[simp] theorem State.coilWrite_nres (v : Row) : (s.coilWrite v).nres = s.nres := rfl
@[simp] theorem State.coilWrite_rspValid (v : Row) : (s.coilWrite v).rspValid = s.rspValid := rfl
@[simp] theorem State.coilWrite_rspStatus (v : Row) : (s.coilWrite v).rspStatus = s.rspStatus := rfl
@[simp] theorem State.coilWrite_rspData (v : Row) : (s.coilWrite v).rspData = s.rspData := rfl

/-! ### `answer` answers at the acceptance edge -/

@[simp] theorem State.answer_config (status : Status) (data : Word) : (s.answer status data).config = s.config := rfl
@[simp] theorem State.answer_port (status : Status) (data : Word) : (s.answer status data).port = s.port := rfl
@[simp] theorem State.answer_driveMethod (status : Status) (data : Word) : (s.answer status data).driveMethod = s.driveMethod := rfl
@[simp] theorem State.answer_stepDelay (status : Status) (data : Word) : (s.answer status data).stepDelay = s.stepDelay := rfl
@[simp] theorem State.answer_coil (status : Status) (data : Word) : (s.answer status data).coil = s.coil := rfl
@[simp] theorem State.answer_coilWr (status : Status) (data : Word) : (s.answer status data).coilWr = false := rfl
@[simp] theorem State.answer_st (status : Status) (data : Word) : (s.answer status data).st = s.st := rfl
@[simp] theorem State.answer_dir (status : Status) (data : Word) : (s.answer status data).dir = s.dir := rfl
@[simp] theorem State.answer_ctr (status : Status) (data : Word) : (s.answer status data).ctr = s.ctr := rfl
@[simp] theorem State.answer_left (status : Status) (data : Word) : (s.answer status data).left = s.left := rfl
@[simp] theorem State.answer_tmr (status : Status) (data : Word) : (s.answer status data).tmr = s.tmr := rfl
@[simp] theorem State.answer_nres (status : Status) (data : Word) : (s.answer status data).nres = s.nres := rfl
@[simp] theorem State.answer_rspValid (status : Status) (data : Word) : (s.answer status data).rspValid = true := rfl
@[simp] theorem State.answer_rspStatus (status : Status) (data : Word) : (s.answer status data).rspStatus = status := rfl
@[simp] theorem State.answer_rspData (status : Status) (data : Word) : (s.answer status data).rspData = data := rfl

/-! ### `startRun` starts a run -/

@[simp] theorem State.startRun_config (n : Int) : (s.startRun n).config = s.config := rfl
@[simp] theorem State.startRun_port (n : Int) : (s.startRun n).port = s.port := rfl
@[simp] theorem State.startRun_driveMethod (n : Int) : (s.startRun n).driveMethod = s.driveMethod := rfl
@[simp] theorem State.startRun_stepDelay (n : Int) : (s.startRun n).stepDelay = s.stepDelay := rfl
@[simp] theorem State.startRun_coil (n : Int) : (s.startRun n).coil = s.rowAt (firstCounter n) := rfl
@[simp] theorem State.startRun_coilWr (n : Int) : (s.startRun n).coilWr = true := rfl
@[simp] theorem State.startRun_st (n : Int) : (s.startRun n).st = .run := rfl
@[simp] theorem State.startRun_dir (n : Int) : (s.startRun n).dir = runDirection n := rfl
@[simp] theorem State.startRun_ctr (n : Int) : (s.startRun n).ctr = firstCounter n := rfl
@[simp] theorem State.startRun_left (n : Int) : (s.startRun n).left = BitVec.ofNat 32 (n.natAbs - 1) := rfl
@[simp] theorem State.startRun_tmr (n : Int) : (s.startRun n).tmr = s.timerLoad := rfl
@[simp] theorem State.startRun_nres (n : Int) : (s.startRun n).nres = bits32 n := rfl
@[simp] theorem State.startRun_rspValid (n : Int) : (s.startRun n).rspValid = false := rfl
@[simp] theorem State.startRun_rspStatus (n : Int) : (s.startRun n).rspStatus = s.rspStatus := rfl
@[simp] theorem State.startRun_rspData (n : Int) : (s.startRun n).rspData = s.rspData := rfl

/-! ### `runWrite` makes the next write of a run -/

@[simp] theorem State.runWrite_config : s.runWrite.config = s.config := rfl
@[simp] theorem State.runWrite_port : s.runWrite.port = s.port := rfl
@[simp] theorem State.runWrite_driveMethod : s.runWrite.driveMethod = s.driveMethod := rfl
@[simp] theorem State.runWrite_stepDelay : s.runWrite.stepDelay = s.stepDelay := rfl
@[simp] theorem State.runWrite_coil : s.runWrite.coil = s.rowAt s.nextCounter := rfl
@[simp] theorem State.runWrite_coilWr : s.runWrite.coilWr = true := rfl
@[simp] theorem State.runWrite_st : s.runWrite.st = s.st := rfl
@[simp] theorem State.runWrite_dir : s.runWrite.dir = s.dir := rfl
@[simp] theorem State.runWrite_ctr : s.runWrite.ctr = s.nextCounter := rfl
@[simp] theorem State.runWrite_left : s.runWrite.left = s.left - 1 := rfl
@[simp] theorem State.runWrite_tmr : s.runWrite.tmr = s.timerLoad := rfl
@[simp] theorem State.runWrite_nres : s.runWrite.nres = s.nres := rfl
@[simp] theorem State.runWrite_rspValid : s.runWrite.rspValid = false := rfl
@[simp] theorem State.runWrite_rspStatus : s.runWrite.rspStatus = s.rspStatus := rfl
@[simp] theorem State.runWrite_rspData : s.runWrite.rspData = s.rspData := rfl

/-! ### `endRun` ends a run -/

@[simp] theorem State.endRun_config : s.endRun.config = s.config := rfl
@[simp] theorem State.endRun_port : s.endRun.port = s.port := rfl
@[simp] theorem State.endRun_driveMethod : s.endRun.driveMethod = s.driveMethod := rfl
@[simp] theorem State.endRun_stepDelay : s.endRun.stepDelay = s.stepDelay := rfl
@[simp] theorem State.endRun_coil : s.endRun.coil = s.coil := rfl
@[simp] theorem State.endRun_coilWr : s.endRun.coilWr = false := rfl
@[simp] theorem State.endRun_st : s.endRun.st = .idle := rfl
@[simp] theorem State.endRun_dir : s.endRun.dir = s.dir := rfl
@[simp] theorem State.endRun_ctr : s.endRun.ctr = s.ctr := rfl
@[simp] theorem State.endRun_left : s.endRun.left = s.left := rfl
@[simp] theorem State.endRun_tmr : s.endRun.tmr = s.tmr := rfl
@[simp] theorem State.endRun_nres : s.endRun.nres = s.nres := rfl
@[simp] theorem State.endRun_rspValid : s.endRun.rspValid = true := rfl
@[simp] theorem State.endRun_rspStatus : s.endRun.rspStatus = statusOk := rfl
@[simp] theorem State.endRun_rspData : s.endRun.rspData = s.nres := rfl

/-! ### `resetEdge` resets -/

@[simp] theorem State.resetEdge_config : s.resetEdge.config = s.config := rfl
@[simp] theorem State.resetEdge_port : s.resetEdge.port = s.port := rfl
@[simp] theorem State.resetEdge_driveMethod : s.resetEdge.driveMethod = BitVec.ofNat 2 s.config.resetMethod := rfl
@[simp] theorem State.resetEdge_stepDelay : s.resetEdge.stepDelay = BitVec.ofNat 32 s.config.resetDelayMs := rfl
@[simp] theorem State.resetEdge_coil : s.resetEdge.coil = 0 := rfl
@[simp] theorem State.resetEdge_coilWr : s.resetEdge.coilWr = false := rfl
@[simp] theorem State.resetEdge_st : s.resetEdge.st = .idle := rfl
@[simp] theorem State.resetEdge_dir : s.resetEdge.dir = .fwd := rfl
@[simp] theorem State.resetEdge_ctr : s.resetEdge.ctr = 0 := rfl
@[simp] theorem State.resetEdge_left : s.resetEdge.left = 0 := rfl
@[simp] theorem State.resetEdge_tmr : s.resetEdge.tmr = 0 := rfl
@[simp] theorem State.resetEdge_nres : s.resetEdge.nres = 0 := rfl
@[simp] theorem State.resetEdge_rspValid : s.resetEdge.rspValid = false := rfl
@[simp] theorem State.resetEdge_rspStatus : s.resetEdge.rspStatus = 0 := rfl
@[simp] theorem State.resetEdge_rspData : s.resetEdge.rspData = 0 := rfl

end Sys2Proof.Machine
end

