-- ==== Sys2Proof/Laws/Edge.lean ====
section
/-! SUPPORT. What each shared operation, a command and an edge can do, said once: later proofs cite these and do not unfold
the operations. -/

namespace Sys2Proof.Machine

/-! ### The timer -/

/-- The timer is loaded with D·T − 1: it fits TMR_W bits (10_state.md R32). -/
theorem timerLoad_add_one {s : State} (hc : s.config.Admissible) (hd : 1 ≤ s32 s.stepDelay) :
    s.timerLoad + 1 = s.period := by
  obtain ⟨-, -, ht, -, -, hw⟩ := hc
  have hr := (s32_range s.stepDelay).2
  simp only [Config.TmrWidthOk] at hw
  have h1 : (1 : Int) ≤ s32 s.stepDelay * s.config.ticksPerMs := by
    have : (1 : Int) ≤ s.config.ticksPerMs := by exact_mod_cast ht
    nlinarith
  have h2 : s32 s.stepDelay * s.config.ticksPerMs ≤ 2 ^ s.config.tmrWidth := by
    have h3 : s32 s.stepDelay ≤ 2 ^ 31 - 1 := by omega
    have h4 : ((2 ^ 31 - 1 : Nat) : Int) * s.config.ticksPerMs ≤ 2 ^ s.config.tmrWidth := by exact_mod_cast hw
    have h5 : s32 s.stepDelay * s.config.ticksPerMs ≤ (2 ^ 31 - 1) * s.config.ticksPerMs :=
      mul_le_mul_of_nonneg_right h3 (by positivity)
    norm_num at h4 h5 ⊢
    linarith
  simp only [State.timerLoad, State.period, if_pos (show 0 < s32 s.stepDelay by omega)]
  rw [Nat.mod_eq_of_lt (by zify; rw [Int.toNat_of_nonneg (by omega)]; omega)]
  omega

/-- The timer's load in integers (40_motion.md R101). -/
theorem timerLoad_int {s : State} (hc : s.config.Admissible) (hd : 1 ≤ s32 s.stepDelay) :
    (s.timerLoad : Int) = s32 s.stepDelay * s.config.ticksPerMs - 1 := by
  have h := timerLoad_add_one hc hd
  have hp : 0 < s.period := by omega
  simp only [State.period] at h hp
  omega

theorem timerLoad_lt (s : State) : s.timerLoad < 2 ^ s.config.tmrWidth := Nat.mod_lt _ (by positivity)

/-! ### A run's first counter -/

theorem firstCounter_toNat {n : Int} (h : InS32 n) : (firstCounter n).toNat = writeCounter n 0 := by
  simp only [firstCounter, writeCounter]
  split
  · have := bits32_toNat_of_nonneg (by omega) h
    omega
  · rfl

theorem writesLeft_toNat {n : Int} (h : InS32 n) : (BitVec.ofNat 32 (n.natAbs - 1)).toNat = n.natAbs - 1 := by
  have h1 := h.1
  have h2 := h.2
  simp only [BitVec.toNat_ofNat]
  omega

/-! ### The next counter -/

/-- A forward run counts down (40_motion.md R103). -/
theorem nextCounter_fwd {s : State} (hd : s.dir = .fwd) (h : 1 ≤ s.ctr.toNat) :
    s.nextCounter.toNat = s.ctr.toNat - 1 := by
  have h0 : s.ctr ≠ 0 := by rintro e; simp [e] at h
  simp only [State.nextCounter, hd, if_neg h0]
  exact toNat_sub_one (by omega)

/-- A reverse run counts up (40_motion.md R103). -/
theorem nextCounter_rev {s : State} (hd : s.dir = .rev) (h : s.ctr.toNat + 1 < 2 ^ 32) :
    s.nextCounter.toNat = s.ctr.toNat + 1 := by
  have h0 : s.ctr ≠ BitVec.allOnes 32 := by rintro e; simp [e] at h
  simp only [State.nextCounter, hd, if_neg h0]
  exact toNat_add_one h

/-- The row of a write with counter value v (20_memory.md R57). -/
theorem rowAt_eq (s : State) (v : Word) : s.rowAt v = romRead s.config s.driveMethod (rowOf v.toNat) := by
  simp [State.rowAt, rowIndex_eq_rowOf]

/-- start_run does what 40_motion.md R101 says. -/
theorem startRun_started {s : State} {n : Int} (h : InS32 n) (hc : s.config.Admissible) (hd : 1 ≤ s32 s.stepDelay) :
    RunStarted n s (s.startRun n) where
  st        := rfl
  dir       := rfl
  ctr       := firstCounter_toNat h
  left      := writesLeft_toNat h
  nres      := s32_bits32 h
  tmr       := timerLoad_int hc hd
  coil      := by simp [rowAt_eq, firstCounter_toNat h]
  coilWr    := rfl
  rspValid  := rfl
  rspStatus := rfl
  rspData   := rfl
  settings  := ⟨rfl, rfl, rfl, rfl⟩

theorem answer_answers (status : Status) (data : Word) (s : State) : Answers status data s (s.answer status data) :=
  ⟨rfl, rfl, rfl, rfl, rfl, ⟨rfl, rfl, rfl, rfl, rfl, rfl⟩⟩

theorem answer_settings (status : Status) (data : Word) (s : State) : SameSettings s (s.answer status data) :=
  ⟨rfl, rfl, rfl, rfl⟩

/-! ### The motion dispatch -/

theorem motionDispatch_zero (s : State) : motionDispatch 0 s = .next (s.answer 0 0) := rfl

theorem motionDispatch_run {n : Int} (h : n ≠ 0) (s : State) : motionDispatch n s = .next (s.startRun n) := by
  simp [motionDispatch, h]

/-- The motion dispatch does what 40_motion.md R100 and R101 say. -/
theorem motionDispatch_dispatched {n : Int} {s : State} (h : InS32 n) (hc : s.config.Admissible)
    (hd : 1 ≤ s32 s.stepDelay) : ∃ t, motionDispatch n s = .next t ∧ Dispatched n s t := by
  by_cases hn : n = 0
  · subst hn
    exact ⟨_, motionDispatch_zero s, by simpa [Dispatched] using ⟨answer_answers 0 0 s, answer_settings 0 0 s⟩⟩
  · exact ⟨_, motionDispatch_run hn s, by simpa [Dispatched, hn] using startRun_started h hc hd⟩

/-! ### Commands -/

/-- A motion command is the dispatch of its step count. -/
theorem exec_of_motionSteps {i : Instr} {s : State} {n : Int} (h : i.motionSteps s.driveMethod = some n) :
    exec i s = motionDispatch n s := by
  cases i <;> simp only [Instr.motionSteps, Option.some.injEq, reduceCtorEq] at h <;> subst h <;> rfl

/-- Everything an accepted command can do: start a run, answer OK, set a register and answer OK, or fail. -/
theorem exec_cases {i : Instr} {s t : State} (h : exec i s = .next t) :
    (∃ n, i.motionSteps s.driveMethod = some n ∧ n ≠ 0 ∧ t = s.startRun n) ∨
    (i.motionSteps s.driveMethod = some 0 ∧ t = s.answer 0 0) ∨
    (∃ ms, i = .setDelay ms ∧ 0 < ms ∧ t = ({ s with stepDelay := bits32 ms } : State).answer 0 0) ∨
    (∃ m, i = .setMethod m ∧ m ≤ 2 ∧ t = ({ s with driveMethod := BitVec.ofNat 2 m } : State).answer 0 0) ∨
    (∃ v, i = .getDelay v ∧ t = s.answer 0 s.stepDelay) ∨
    (∃ v, i = .getMethod v ∧ t = s.answer 0 (s.driveMethod.setWidth 32)) ∨
    (((∃ ms, i = .setDelay ms ∧ ms ≤ 0) ∨ ∃ m, i = .setMethod m ∧ 2 < m) ∧ t = s.answer 1 0) ∨
    (i.isReserved = true ∧ t = s.answer 2 0) := by
  cases hm : i.motionSteps s.driveMethod with
  | some n =>
    rw [exec_of_motionSteps hm] at h
    by_cases hn : n = 0
    · subst hn
      rw [motionDispatch_zero, Host.Outcome.next.injEq] at h
      exact .inr (.inl ⟨rfl, h.symm⟩)
    · rw [motionDispatch_run hn, Host.Outcome.next.injEq] at h
      exact .inl ⟨n, rfl, hn, h.symm⟩
  | none =>
    refine .inr (.inr ?_)
    cases i <;> simp only [Instr.motionSteps, reduceCtorEq] at hm
    case setDelay ms =>
      simp only [exec, execSetDelay, raiseError] at h
      split at h <;> rw [Host.Outcome.next.injEq] at h
      · exact .inr (.inr (.inr (.inr (.inl ⟨.inl ⟨ms, rfl, ‹_›⟩, h.symm⟩))))
      · exact .inl ⟨ms, rfl, by omega, h.symm⟩
    case setMethod m =>
      simp only [exec, execSetMethod, raiseError] at h
      split at h <;> rw [Host.Outcome.next.injEq] at h
      · exact .inr (.inr (.inr (.inr (.inl ⟨.inr ⟨m, rfl, ‹_›⟩, h.symm⟩))))
      · exact .inr (.inl ⟨m, rfl, by omega, h.symm⟩)
    case getDelay v => exact .inr (.inr (.inl ⟨v, rfl, (Host.Outcome.next.inj h).symm⟩))
    case getMethod v => exact .inr (.inr (.inr (.inl ⟨v, rfl, (Host.Outcome.next.inj h).symm⟩)))
    all_goals exact .inr (.inr (.inr (.inr (.inr ⟨rfl, (Host.Outcome.next.inj h).symm⟩))))

/-! ### The run step and the edge -/

/-- Everything a run step can do (40_motion.md R103). -/
theorem runEdge_cases (s : State) :
    (s.tmr ≠ 0 ∧ s.runEdge = { s.clearPulses with tmr := s.tmr - 1 }) ∨
    (s.tmr = 0 ∧ s.left ≠ 0 ∧ s.runEdge = s.runWrite) ∨
    (s.tmr = 0 ∧ s.left = 0 ∧ s.runEdge = s.endRun) := by
  by_cases h : s.tmr = 0
  · by_cases h2 : s.left = 0
    · exact .inr (.inr ⟨h, h2, by simp [State.runEdge, h, h2]⟩)
    · exact .inr (.inl ⟨h, h2, by simp only [State.runEdge, ne_eq, h, h2, not_true, not_false_eq_true, if_true, if_false]⟩)
  · exact .inl ⟨h, by simp [State.runEdge, h]⟩

theorem step_refused {s : State} (h : ¬ s.config.Admissible) : step s = .refused .inadmissibleConfiguration := by
  simp only [step, if_neg h]

theorem step_admissible {s : State} (h : s.config.Admissible) : step s = edge s.pins s.takePins := by
  simp only [step, if_pos h]

/-- Everything an edge can do: reset, execute an accepted command, step the run, or end the pulses of an idle machine. -/
theorem step_cases {s t : State} (h : step s = .next t) :
    s.config.Admissible ∧
    ((s.pins.rst = true ∧ t = s.takePins.resetEdge) ∨
     (s.pins.rst = false ∧ s.pins.cmdValid = true ∧ s.st = .idle ∧ exec (decode s.pins.cmdWord) s.takePins = .next t) ∨
     (s.pins.rst = false ∧ s.st = .run ∧ t = s.takePins.runEdge) ∨
     (s.pins.rst = false ∧ s.pins.cmdValid = false ∧ s.st = .idle ∧ t = s.takePins.clearPulses)) := by
  by_cases hc : s.config.Admissible
  · refine ⟨hc, ?_⟩
    rw [step_admissible hc] at h
    cases hr : s.pins.rst <;> cases hv : s.pins.cmdValid <;> cases hs : s.st <;>
      simp_all [edge, accepts, cmdReady, busy]
  · rw [step_refused hc] at h
    cases h

theorem step_reset {s : State} (hc : s.config.Admissible) (hr : s.pins.rst = true) :
    step s = .next s.takePins.resetEdge := by
  simp [step_admissible hc, edge, hr]

theorem step_accept {s : State} (hc : s.config.Admissible) (hr : s.pins.rst = false) (hv : s.pins.cmdValid = true)
    (hs : s.st = .idle) : step s = exec (decode s.pins.cmdWord) s.takePins := by
  simp [step_admissible hc, edge, accepts, cmdReady, hr, hv, hs]

theorem step_run {s : State} (hc : s.config.Admissible) (hr : s.pins.rst = false) (hs : s.st = .run) :
    step s = .next s.takePins.runEdge := by
  simp [step_admissible hc, edge, accepts, cmdReady, busy, hr, hs]

theorem step_quiet {s : State} (hc : s.config.Admissible) (hr : s.pins.rst = false) (hv : s.pins.cmdValid = false)
    (hs : s.st = .idle) : step s = .next s.takePins.clearPulses := by
  simp [step_admissible hc, edge, accepts, busy, hr, hv, hs]

/-! ### Several edges -/

theorem after_zero (s : State) : s.after 0 = .next s := rfl

theorem after_succ {s t : State} (h : step s = .next t) (k : Nat) : s.after (k + 1) = t.after k := by
  simp only [State.after, Host.Core.run, core, h]

theorem after_add {s t : State} {j : Nat} (h : s.after j = .next t) (k : Nat) : s.after (j + k) = t.after k := by
  induction j generalizing s with
  | zero =>
    cases h
    simp
  | succ j ih =>
    cases hs : step s with
    | next u =>
      rw [after_succ hs] at h
      rw [show j + 1 + k = (j + k) + 1 by omega, after_succ hs]
      exact ih h
    | fault r => cases r
    | refused r =>
      simp only [State.after, Host.Core.run, core, hs] at h
      cases h

end Sys2Proof.Machine
end

