-- ==== Sys2Proof/Laws/Invariant.lean ====
section
/-! SUPPORT. Which shared operations keep the machine's invariant. -/

namespace Sys2Proof.Machine

theorem s32_ofNat {x : Nat} (h : x ≤ 2 ^ 31 - 1) : s32 (BitVec.ofNat 32 x) = x := by
  have e : (BitVec.ofNat 32 x).toNat = x := by
    simp only [BitVec.toNat_ofNat]
    omega
  rw [s32, BitVec.toInt_eq_toNat_of_lt (by omega), e]

theorem takePins_inv {s : State} (h : s.Inv) : s.takePins.Inv where
  config_ok    := h.config_ok
  method_legal := h.method_legal
  delay_pos    := h.delay_pos
  timer_fits   := h.timer_fits
  status_legal := h.status_legal
  coil_legal   := h.coil_legal
  pulse_in_run := h.pulse_in_run
  run hs       := ⟨(h.run hs).counts, (h.run hs).row, (h.run hs).timer, (h.run hs).pulse, (h.run hs).no_response⟩

theorem clearPulses_inv {s : State} (h : s.Inv) (hs : s.st = .idle) : s.clearPulses.Inv where
  config_ok    := h.config_ok
  method_legal := h.method_legal
  delay_pos    := h.delay_pos
  timer_fits   := h.timer_fits
  status_legal := h.status_legal
  coil_legal   := h.coil_legal
  pulse_in_run := by simp
  run hr       := by simp [hs] at hr

theorem answer_inv {s : State} (h : s.Inv) (hs : s.st = .idle) {status : Status} (h3 : status ≠ 3) (data : Word) :
    (s.answer status data).Inv where
  config_ok    := h.config_ok
  method_legal := h.method_legal
  delay_pos    := h.delay_pos
  timer_fits   := h.timer_fits
  status_legal := h3
  coil_legal   := h.coil_legal
  pulse_in_run := by simp
  run hr       := by simp [hs] at hr

theorem startRun_inv {s : State} {n : Int} (h : s.Inv) (hn : n ≠ 0) (hr : InS32 n) : (s.startRun n).Inv := by
  have R := startRun_started hr h.config_ok h.delay_pos
  have hload := timerLoad_add_one h.config_ok h.delay_pos
  have hdir := R.dir
  have hctr := R.ctr
  have hleft := R.left
  have hnres := R.nres
  refine ⟨h.config_ok, h.method_legal, h.delay_pos, timerLoad_lt s, h.status_legal, .inr ⟨_, _, h.method_legal, R.coil⟩,
    fun _ => rfl, fun _ => ⟨?_, ?_, hload.le, ⟨fun _ => hload, fun _ => rfl⟩, rfl⟩⟩
  · simp only [writeCounter] at hctr
    simp only [RunCounts, hdir]
    by_cases hp : 0 < n
    · simp only [hp, if_true] at hctr ⊢
      omega
    · simp only [hp, if_false] at hctr ⊢
      omega
  · rw [R.coil, hctr]
    rfl

/-- A further write of a run: the counter moves within its bounds and the writes left go down. -/
theorem runWrite_counts {s : State} (h : RunCounts s) (hl : s.left ≠ 0) : RunCounts s.runWrite := by
  have hl' := toNat_ne_zero hl
  have h1 := s.left.isLt
  have h2 := s.ctr.isLt
  have hr := s32_range s.nres
  have hleft := toNat_sub_one hl'
  simp only [InS32] at hr
  simp only [RunCounts, State.runWrite_dir, State.runWrite_nres, State.runWrite_ctr, State.runWrite_left, hleft] at h ⊢
  cases hd : s.dir <;> simp only [hd] at h ⊢
  · have := nextCounter_fwd hd (by omega)
    omega
  · have := nextCounter_rev hd (by omega)
    omega

theorem runEdge_inv {s : State} (h : s.Inv) (hs : s.st = .run) : s.runEdge.Inv := by
  obtain ⟨hcnt, hrow, htim, hpul, -⟩ := h.run hs
  have hload := timerLoad_add_one h.config_ok h.delay_pos
  rcases runEdge_cases s with ⟨h0, e⟩ | ⟨h0, hl, e⟩ | ⟨h0, hl, e⟩ <;> rw [e]
  · have hper : State.period { s.clearPulses with tmr := s.tmr - 1 } = s.period := rfl
    have hfit := h.timer_fits
    refine ⟨h.config_ok, h.method_legal, h.delay_pos, ?_, h.status_legal, h.coil_legal, by simp,
      fun _ => ⟨hcnt, hrow, ?_, ?_, rfl⟩⟩
    · change s.tmr - 1 < 2 ^ s.config.tmrWidth
      omega
    · rw [hper]
      change s.tmr - 1 + 1 ≤ _
      omega
    · rw [hper]
      change false = true ↔ s.tmr - 1 + 1 = _
      simp only [Bool.false_eq_true, false_iff]
      omega
  · exact ⟨h.config_ok, h.method_legal, h.delay_pos, timerLoad_lt s, h.status_legal,
      .inr ⟨_, _, h.method_legal, rowAt_eq _ _⟩, fun _ => hs,
      fun _ => ⟨runWrite_counts hcnt hl, rowAt_eq _ _, hload.le, ⟨fun _ => hload, fun _ => rfl⟩, rfl⟩⟩
  · exact ⟨h.config_ok, h.method_legal, h.delay_pos, h.timer_fits, by simp [statusOk], h.coil_legal, by simp,
      fun hr => by cases hr⟩

end Sys2Proof.Machine
end

