-- ==== Sys2Proof/Laws/PerInstr.lean ====
section
/-! SUPPORT. A fact about every command as syntax, one lemma for each constructor: the fields of its encoding. -/

namespace Sys2Proof.Laws.EncodedFields

/-- The two fields of the command word are the command's opcode and its operand's bits (30_encoding.md R72). -/
def Statement (i : Instr) : Prop := opField (encode i) = i.opcode ∧ argField (encode i) = i.argBits

theorem fields (i : Instr) : Statement i := ⟨opField_append _ _, argField_append _ _⟩

theorem step (n : Int) : Statement (.step n) := fields _
theorem quarter (n : Int) : Statement (.quarter n) := fields _
theorem half (n : Int) : Statement (.half n) := fields _
theorem full (n : Int) : Statement (.full n) := fields _
theorem angle (n : Binary32) : Statement (.angle n) := fields _
theorem setDelay (n : Int) : Statement (.setDelay n) := fields _
theorem getDelay (n : Word) : Statement (.getDelay n) := fields _
theorem setMethod (n : Nat) : Statement (.setMethod n) := fields _
theorem getMethod (n : Word) : Statement (.getMethod n) := fields _
theorem reserved0 (n : Word) : Statement (.reserved0 n) := fields _
theorem reservedA (n : Word) : Statement (.reservedA n) := fields _
theorem reservedB (n : Word) : Statement (.reservedB n) := fields _
theorem reservedC (n : Word) : Statement (.reservedC n) := fields _
theorem reservedD (n : Word) : Statement (.reservedD n) := fields _
theorem reservedE (n : Word) : Statement (.reservedE n) := fields _
theorem reservedF (n : Word) : Statement (.reservedF n) := fields _

end Sys2Proof.Laws.EncodedFields
end

