-- ==== Sys2Proof/Tests/Slice0.lean ====
section
/-! SUPPORT. Tests: ill-formed terms refused, words of the spec decoded, vectors of 95_test_vectors.md on single edges, and
for each statement with hypotheses a concrete state and operands that meet them. -/

namespace Sys2Proof.Tests

open Sys2Proof Sys2Proof.Machine

/-! ## Helpers -/

/-- The next state of an outcome, if it is one. -/
def nextOf (o : Host.Outcome State Fault Refusal) : Option State :=
  match o with
  | .next t    => some t
  | .fault _   => none
  | .refused _ => none

/-- The refusal of an outcome, if it is one. -/
def refusalOf (o : Host.Outcome State Fault Refusal) : Option Refusal :=
  match o with
  | .next _    => none
  | .fault _   => none
  | .refused r => some r

theorem nextOf_eq {o : Host.Outcome State Fault Refusal} {t : State} (h : nextOf o = some t) : o = .next t := by
  cases o with
  | next u => exact congrArg _ (Option.some.inj h)
  | fault r => cases r
  | refused r => cases h

/-- An idle machine with drive method m and delay d, and the pins to come. -/
def idle (m : Method) (d : Word) (port : List Pins := []) : State :=
  { State.reset with driveMethod := m, stepDelay := d, port := port }

/-- A machine in a run: direction, counter, writes left, timer and step count given. -/
def running (m : Method) (dir : Direction) (ctr left : Word) (tmr : Nat) (nres : Word) (port : List Pins := []) : State :=
  { idle m 1 port with st := .run, dir := dir, ctr := ctr, left := left, tmr := tmr, nres := nres }

/-- What an outcome shows of the coil port: coil and coil_wr. -/
def coilOf (o : Host.Outcome State Fault Refusal) : Option (Row × Bool) := (nextOf o).map fun t => (t.coil, t.coilWr)

/-- What an outcome shows of the response: rsp_valid, rsp_status and rsp_data. -/
def responseOf (o : Host.Outcome State Fault Refusal) : Option (Bool × Status × Word) :=
  (nextOf o).map fun t => (t.rspValid, t.rspStatus, t.rspData)

/-- What an outcome shows of a run's start: st, dir, the writes left and the step count. -/
def runOf (o : Host.Outcome State Fault Refusal) : Option (RunState × Direction × Word × Word) :=
  (nextOf o).map fun t => (t.st, t.dir, t.left, t.nres)

/-! ## WellFormed: an ill-formed term for each check -/

theorem test_step_operand_too_large : ¬ (Instr.step (2 ^ 31)).WellFormed := by decide
theorem test_quarter_operand_too_small : ¬ (Instr.quarter (-(2 ^ 31) - 1)).WellFormed := by decide
theorem test_half_operand_too_large : ¬ (Instr.half (2 ^ 31)).WellFormed := by decide
theorem test_full_operand_too_small : ¬ (Instr.full (-(2 ^ 31) - 1)).WellFormed := by decide
theorem test_setDelay_operand_too_large : ¬ (Instr.setDelay (2 ^ 31)).WellFormed := by decide
theorem test_setMethod_operand_too_large : ¬ (Instr.setMethod (2 ^ 32)).WellFormed := by decide

/-- 70_reset_and_hazards.md R192, one configuration outside each of its conditions. -/
theorem test_config_delay_zero : ¬ { Config.reference with resetDelayMs := 0 }.Admissible := by decide
theorem test_config_delay_too_large : ¬ { Config.reference with resetDelayMs := 2 ^ 31 }.Admissible := by decide
theorem test_config_method_three : ¬ { Config.reference with resetMethod := 3 }.Admissible := by decide
theorem test_config_no_ticks : ¬ { Config.reference with ticksPerMs := 0 }.Admissible := by decide
theorem test_config_wave_row_two_high :
    ¬ { Config.reference with waveRows := #v[8, 4, 2, 1, 8, 4, 2, 3] }.Admissible := by decide
theorem test_config_half_row_three_high :
    ¬ { Config.reference with halfRows := #v[8, 0xC, 4, 6, 2, 3, 1, 0xB] }.Admissible := by decide
theorem test_config_half_rows_not_alternating :
    ¬ { Config.reference with halfRows := #v[8, 0xC, 4, 6, 2, 1, 1, 9] }.Admissible := by decide
theorem test_config_timer_too_narrow : ¬ { Config.reference with tmrWidth := 30 }.Admissible := by decide

/-- The reference configuration is admissible (20_memory.md R56: "REF satisfies rules R53 and R54"). -/
theorem test_config_reference : Config.reference.Admissible := by decide

/-! ## Decode: a word written out from the encoding (30_encoding.md R72 to R74) for every constructor -/

theorem test_decode_step : decode 0b0001_11111111111111111111111111111011#36 = .step (-5) := by decide
theorem test_decode_quarter : decode 0b0010_10000000000000000000000000000000#36 = .quarter (-(2 ^ 31)) := by decide
theorem test_decode_half : decode 0b0011_01000000000000000000000000000000#36 = .half (2 ^ 30) := by decide
theorem test_decode_full : decode 0b0100_00000000000000000000000000000010#36 = .full 2 := by decide
theorem test_decode_angle :
    decode 0b0101_1_10000101_01101000000000000000000#36 = .angle ⟨1, 0b10000101, 0b01101000000000000000000⟩ := by decide
theorem test_decode_setDelay : decode 0b0110_01111111111111111111111111111111#36 = .setDelay (2 ^ 31 - 1) := by decide
theorem test_decode_getDelay : decode 0b0111_11011110101011011011111011101111#36 = .getDelay 0xDEADBEEF := by decide
theorem test_decode_setMethod : decode 0b1000_11111111111111111111111111111111#36 = .setMethod (2 ^ 32 - 1) := by decide
theorem test_decode_getMethod : decode 0b1001_00000000000000000000000000000000#36 = .getMethod 0 := by decide
theorem test_decode_reserved0 : decode 0b0000_00000000000000000000000000000001#36 = .reserved0 1 := by decide
theorem test_decode_reservedA : decode 0b1010_00010010001101000101011001111000#36 = .reservedA 0x12345678 := by decide
theorem test_decode_reservedB : decode 0b1011_00000000000000000000000000000000#36 = .reservedB 0 := by decide
theorem test_decode_reservedC : decode 0b1100_00000000000000000000000000000000#36 = .reservedC 0 := by decide
theorem test_decode_reservedD : decode 0b1101_00000000000000000000000000000000#36 = .reservedD 0 := by decide
theorem test_decode_reservedE : decode 0b1110_00000000000000000000000000000000#36 = .reservedE 0 := by decide
theorem test_decode_reservedF : decode 0b1111_11111111111111111111111111111111#36 = .reservedF 0xFFFFFFFF := by decide
theorem test_decode_rejects_37_bits : decodeNat (2 ^ 36) = .error .widerThan36Bits := by decide

/-- 30_encoding.md R82's examples of encodings. -/
theorem test_encode_examples :
    encode (.step (-5)) = 0x1FFFFFFFB#36 ∧ encode (.angle ⟨0, 134, 0x340000⟩) = 0x543340000#36 ∧
      encode (.setMethod 1) = 0x800000001#36 := by decide

/-! ## One edge at a time: vectors of 95_test_vectors.md under REF -/

/-- V1's first write: index 5. -/
theorem test_step_forward : coilOf (exec (.step 5) (idle 0 1)) = some (4, true) := by decide
/-- V11: 2^31 writes, so 2^31 − 1 are left after the first, which is index 0. -/
theorem test_step_most_negative :
    runOf (exec (.step (-(2 ^ 31))) (idle 2 1)) = some (.run, .rev, 0x7FFFFFFF, 0x80000000) := by decide
/-- Section 2.3, QUARTER 2^22 under FULL_STEP: wrapped to −2^31. -/
theorem test_quarter_wraps :
    runOf (exec (.quarter (2 ^ 22)) (idle 1 1)) = some (.run, .rev, 0x7FFFFFFF, 0x80000000) := by decide
/-- Section 1, S11: 1024 under HALF_STEP. -/
theorem test_quarter_halfStep : runOf (exec (.quarter 1) (idle 2 1)) = some (.run, .fwd, 1023, 1024) := by decide
/-- Section 2.3, HALF 2^30: wrapped to 0, so no motion. -/
theorem test_half_wraps_to_zero : responseOf (exec (.half (2 ^ 30)) (idle 1 1)) = some (true, 0, 0) := by decide
/-- Section 2.3, HALF −1 under HALF_STEP. -/
theorem test_half_reverse : runOf (exec (.half (-1)) (idle 2 1)) = some (.run, .rev, 2047, 0xFFFFF800) := by decide
/-- Section 1, S5: 2048 under FULL_STEP. -/
theorem test_full_fullStep : runOf (exec (.full 1) (idle 1 1)) = some (.run, .fwd, 2047, 2048) := by decide
/-- Section 2.3, FULL 2^19 under HALF_STEP: wrapped to −2^31. -/
theorem test_full_wraps :
    runOf (exec (.full (2 ^ 19)) (idle 2 1)) = some (.run, .rev, 0x7FFFFFFF, 0x80000000) := by decide
/-- Section 1, S6 and S7, and section 2.4: 359.99997 and −1.0. -/
theorem test_angle_counts :
    angleSteps 1 (readBinary32 0x43340000) = 1024 ∧ angleSteps 2 (readBinary32 0x43870000) = 3072 ∧
      angleSteps 2 (readBinary32 0x43B3FFFF) = 4095 ∧ angleSteps 0 (readBinary32 0xBF800000) = -5 := by decide
/-- Section 2.4: the largest finite value, −∞, a NaN and the smallest subnormal. -/
theorem test_angle_corners :
    angleSteps 0 (readBinary32 0x7F7FFFFF) = 5965232 ∧ angleSteps 2 (readBinary32 0xFF800000) = -5965232 ∧
      angleSteps 2 (readBinary32 0xFFC00001) = 0 ∧ angleSteps 0 (readBinary32 0x00000001) = 0 := by decide
/-- C2. -/
theorem test_setDelay_largest :
    (nextOf (exec (.setDelay (2 ^ 31 - 1)) (idle 2 10))).map (·.stepDelay) = some 0x7FFFFFFF := by decide
/-- C4. -/
theorem test_setDelay_rejects :
    nextOf (exec (.setDelay (-5)) (idle 2 10)) = some { idle 2 10 with rspValid := true, rspStatus := 1 } := by decide
/-- C7: the arg is ignored. -/
theorem test_getDelay : responseOf (exec (.getDelay 0xDEADBEEF) (idle 2 10)) = some (true, 0, 10) := by decide
/-- C9. -/
theorem test_setMethod_fullStep :
    (nextOf (exec (.setMethod 1) (idle 2 10))).map (·.driveMethod) = some 1 := by decide
/-- C12: the whole arg is checked. -/
theorem test_setMethod_rejects :
    nextOf (exec (.setMethod 0x100) (idle 2 10)) = some { idle 2 10 with rspValid := true, rspStatus := 1 } := by decide
/-- C13. -/
theorem test_getMethod : responseOf (exec (.getMethod 0) (idle 2 10)) = some (true, 0, 2) := by decide
/-- C14 and 42_config.md R158. -/
theorem test_reserved_0_A_B_C :
    responseOf (exec (.reserved0 0) (idle 2 10)) = some (true, 2, 0) ∧
      responseOf (exec (.reservedA 0x12345678) (idle 2 10)) = some (true, 2, 0) ∧
      responseOf (exec (.reservedB 0) (idle 2 10)) = some (true, 2, 0) ∧
      responseOf (exec (.reservedC 0) (idle 2 10)) = some (true, 2, 0) := by decide
/-- C16 and 42_config.md R158. -/
theorem test_reserved_D_E_F :
    responseOf (exec (.reservedD 0) (idle 2 10)) = some (true, 2, 0) ∧
      responseOf (exec (.reservedE 0) (idle 2 10)) = some (true, 2, 0) ∧
      responseOf (exec (.reservedF 0xFFFFFFFF) (idle 2 10)) = some (true, 2, 0) := by decide
/-- V1, edge 4: index 4, whatever is offered meanwhile. -/
theorem test_run_write_forward :
    coilOf (step (running 0 .fwd 5 4 0 5 [⟨false, true, 0x800000002⟩])) = some (8, true) := by decide
/-- V2, edge 7: index 4. -/
theorem test_run_write_reverse : coilOf (step (running 0 .rev 3 1 0 0xFFFFFFFB)) = some (8, true) := by decide
/-- V1, edge 8: the response. -/
theorem test_run_end : responseOf (step (running 0 .fwd 1 0 0 5)) = some (true, 0, 5) := by decide
/-- P4, edge 6: reset in the middle of STEP 100 returns every register to its reset value. -/
theorem test_reset_in_a_run :
    nextOf (step { running 2 .fwd 97 96 0 100 [⟨true, false, 0⟩] with coil := 0xC }) = some State.reset := by decide
/-- R-2: a command offered with rst = 1 is not accepted. -/
theorem test_reset_before_command :
    responseOf (step (idle 2 10 [⟨true, true, 0x900000000⟩])) = some (false, 0, 0) := by decide
/-- R-1: GET_DELAY as the first command after reset answers the reset delay. -/
theorem test_first_command_after_reset :
    responseOf (step (State.reset.withFetchWord 40 0x700000000)) = some (true, 0, 10) := by decide

/-! ## Witnesses: every statement's hypotheses are met -/

/-- The pins of a host that offers w. -/
def offer (w : CommandWord) : Pins := ⟨false, true, w⟩

/-- The pins of a host that asserts rst. -/
def resetPins : Pins := ⟨true, false, 0⟩

theorem witness_DecodeOfEncodeIsTheCommand :
    (Instr.step (-(2 ^ 31))).WellFormed ∧ (Instr.setDelay (2 ^ 31 - 1)).WellFormed ∧
      (Instr.setMethod (2 ^ 32 - 1)).WellFormed ∧ (Instr.angle ⟨1, 255, 0x7FFFFF⟩).WellFormed := by decide

/-- One word with each opcode, every arg bit 1. -/
theorem witness_OpcodeMapReadsEveryWord :
    0x0FFFFFFFF#36 &&& 0xF00000000#36 = 0x000000000#36 ∧ 0x1FFFFFFFF#36 &&& 0xF00000000#36 = 0x100000000#36 ∧
    0x2FFFFFFFF#36 &&& 0xF00000000#36 = 0x200000000#36 ∧ 0x3FFFFFFFF#36 &&& 0xF00000000#36 = 0x300000000#36 ∧
    0x4FFFFFFFF#36 &&& 0xF00000000#36 = 0x400000000#36 ∧ 0x5FFFFFFFF#36 &&& 0xF00000000#36 = 0x500000000#36 ∧
    0x6FFFFFFFF#36 &&& 0xF00000000#36 = 0x600000000#36 ∧ 0x7FFFFFFFF#36 &&& 0xF00000000#36 = 0x700000000#36 ∧
    0x8FFFFFFFF#36 &&& 0xF00000000#36 = 0x800000000#36 ∧ 0x9FFFFFFFF#36 &&& 0xF00000000#36 = 0x900000000#36 ∧
    0xAFFFFFFFF#36 &&& 0xF00000000#36 = 0xA00000000#36 ∧ 0xBFFFFFFFF#36 &&& 0xF00000000#36 = 0xB00000000#36 ∧
    0xCFFFFFFFF#36 &&& 0xF00000000#36 = 0xC00000000#36 ∧ 0xDFFFFFFFF#36 &&& 0xF00000000#36 = 0xD00000000#36 ∧
    0xEFFFFFFFF#36 &&& 0xF00000000#36 = 0xE00000000#36 ∧ 0xFFFFFFFFF#36 &&& 0xF00000000#36 = 0xF00000000#36 := by decide

/-- An offer to an idle machine, an offer during a run, an offer at a reset edge, and no offer with rst at either level. -/
theorem witness_StepExecutesTheAcceptedCommand :
    (idle 2 1 [offer 5]).config.Admissible ∧
    ((idle 2 1 [offer 5]).st = .idle ∧ (idle 2 1 [offer 5]).port = ⟨false, true, 5⟩ :: []) ∧
    ((running 2 .fwd 1 0 0 1 [offer 5]).st = .run ∧ (running 2 .fwd 1 0 0 1 [offer 5]).port = ⟨false, true, 5⟩ :: []) ∧
    (idle 2 1 [⟨true, true, 5⟩]).port = ⟨true, true, 5⟩ :: [] ∧
    (idle 2 1 [⟨false, false, 5⟩]).port = ⟨false, false, 5⟩ :: [] ∧
    (idle 2 1 [⟨true, false, 5⟩]).port = ⟨true, false, 5⟩ :: [] := by decide

theorem witness_PlacedWordRunsNext : (idle 2 1).config.Admissible ∧ 2 ^ 36 - 1 < 2 ^ 36 := by decide

theorem witness_ResetEdgeSetsEveryRegister :
    (running 3 .rev 7 9 4 5 [resetPins]).config.Admissible ∧ (running 3 .rev 7 9 4 5 [resetPins]).pins.rst = true := by
  decide

theorem witness_ResetAbortsARun :
    (running 2 .fwd 97 96 0 100 [resetPins, ⟨true, false, 5⟩]).config.Admissible ∧
    (running 2 .fwd 97 96 0 100 [resetPins, ⟨true, false, 5⟩]).st = .run ∧
    (running 2 .fwd 97 96 0 100 [resetPins, ⟨true, false, 5⟩]).pins.rst = true ∧
    ∀ p ∈ (running 2 .fwd 97 96 0 100 [resetPins, ⟨true, false, 5⟩]).port.tail.take 3, p.cmdValid = false := by decide

/-- A state that meets the conditions of the first clause and one that meets those of the second. -/
theorem witness_OnlyAdmissibleConfigurationsHaveAMeaning :
    (nextOf (step (idle 2 1))).isSome = true ∧
    refusalOf (step { idle 2 1 with config := { Config.reference with tmrWidth := 30 } }) =
      some .inadmissibleConfiguration ∧
    Nat.clog 2 ((2 ^ 31 - 1) * 1) ≤ 31 ∧ ¬ Nat.clog 2 ((2 ^ 31 - 1) * 1) ≤ 30 := by
  refine ⟨by decide, by decide, ?_, ?_⟩
  · rw [Nat.clog_le_iff_le_pow (by norm_num)]
    norm_num
  · rw [Nat.clog_le_iff_le_pow (by norm_num)]
    norm_num

theorem witness_WaveRowsAreOneHot : Config.reference.Admissible ∧ ((0 : Method) = 0 ∨ (0 : Method) = 1) ∧
    ((1 : Method) = 0 ∨ (1 : Method) = 1) := by decide

theorem witness_HalfRowsAlternateAroundTheTable : Config.reference.Admissible := by decide

theorem witness_NoEdgeWritesTheRom : ∃ t, step (idle 2 1 [offer 0x100000005]) = .next t :=
  ⟨_, nextOf_eq (t := (idle 2 1).startRun 5) (by decide)⟩

/-- A count that is 0 and one that is not. -/
theorem witness_MotionCommandsDispatchTheirStepCount :
    (Instr.step 0).WellFormed ∧ (Instr.angle ⟨1, 255, 0⟩).WellFormed ∧ (idle 2 1).config.Admissible ∧
    1 ≤ s32 (idle 2 1).stepDelay ∧ (Instr.step 0).motionSteps (idle 2 1).driveMethod = some 0 ∧
    (Instr.angle ⟨1, 255, 0⟩).motionSteps (idle 2 1).driveMethod = some (-5965232) := by decide

theorem witness_rotation_statements :
    InS32 (-(2 ^ 31)) ∧ InS32 (2 ^ 31 - 1) ∧ (idle 2 1).config.Admissible ∧ 1 ≤ s32 (idle 2 1).stepDelay := by decide

theorem witness_RotationProductsWrapOutsideTheirBounds :
    (2 : Method) ≠ 3 ∧ (0 : Method) ≠ 3 ∧ (1 : Method) ≠ 3 ∧ (1024 : Int) = (if (2 : Method) = 2 then 1024 else 512) ∧
    (512 : Int) = (if (1 : Method) = 2 then 1024 else 512) := by decide

/-- A NaN, +∞ and −∞. -/
theorem witness_AngleDispatches_not_finite :
    ((255 : BitVec 8) = 255 ∧ (1 : BitVec 23) ≠ 0) ∧ ((255 : BitVec 8) = 255 ∧ (0 : BitVec 23) = 0 ∧ (0 : BitVec 1) = 0) ∧
    ((255 : BitVec 8) = 255 ∧ (0 : BitVec 23) = 0 ∧ (1 : BitVec 1) = 1) := by decide

theorem real_normal {s : BitVec 1} {e : BitVec 8} {f : BitVec 23} (h : e ≠ 0) (a b c : Nat) (ha : s.toNat = a)
    (hb : e.toNat = b) (hc : f.toNat = c) :
    (⟨s, e, f⟩ : Binary32).real = (-1) ^ a * ((2 : ℚ) ^ ((b : ℤ) - 127) * (1 + c / 2 ^ 23)) := by
  simp only [Binary32.real, if_neg h, ha, hb, hc]

/-- 2^20 degrees and −2^20 degrees: K·angle is exactly ±2^31 at K = 2048. -/
theorem witness_AngleDispatches_saturated :
    ((147 : BitVec 8) ≠ 255 ∧ (2 : ℚ) ^ 31 ≤ 2048 * (⟨0, 147, 0⟩ : Binary32).real) ∧
    ((147 : BitVec 8) ≠ 255 ∧ 2048 * (⟨1, 147, 0⟩ : Binary32).real ≤ -(2 ^ 31)) := by
  rw [real_normal (by decide) 0 147 0 rfl rfl rfl, real_normal (by decide) 1 147 0 rfl rfl rfl]
  refine ⟨⟨by decide, ?_⟩, ⟨by decide, ?_⟩⟩ <;> norm_num

/-- The next binary32 below 2^20, and −90: inside the range at K = 2048. -/
theorem witness_AngleDispatches_exact :
    ((146 : BitVec 8) ≠ 255 ∧ -(2 : ℚ) ^ 31 < 2048 * (⟨0, 146, 0x7FFFFF⟩ : Binary32).real ∧
      2048 * (⟨0, 146, 0x7FFFFF⟩ : Binary32).real < 2 ^ 31) ∧
    ((133 : BitVec 8) ≠ 255 ∧ -(2 : ℚ) ^ 31 < 2048 * (⟨1, 133, 0x340000⟩ : Binary32).real ∧
      2048 * (⟨1, 133, 0x340000⟩ : Binary32).real < 2 ^ 31) := by
  rw [real_normal (by decide) 0 146 0x7FFFFF rfl rfl rfl, real_normal (by decide) 1 133 0x340000 rfl rfl rfl]
  refine ⟨⟨by decide, ?_, ?_⟩, by decide, ?_, ?_⟩ <;> norm_num

/-- The largest finite angle either way overflows at K = 2048, and 1.0 does not. -/
theorem witness_AngleProductIsExactOrInfinite :
    (2 - (2 : ℚ) ^ (-23 : ℤ)) * (2 : ℚ) ^ (127 : ℤ) < 2048 * (⟨0, 254, 0x7FFFFF⟩ : Binary32).real ∧
    2048 * (⟨1, 254, 0x7FFFFF⟩ : Binary32).real < -((2 - (2 : ℚ) ^ (-23 : ℤ)) * (2 : ℚ) ^ (127 : ℤ)) ∧
    (-((2 - (2 : ℚ) ^ (-23 : ℤ)) * (2 : ℚ) ^ (127 : ℤ)) ≤ 2048 * (⟨0, 127, 0⟩ : Binary32).real ∧
      2048 * (⟨0, 127, 0⟩ : Binary32).real ≤ (2 - (2 : ℚ) ^ (-23 : ℤ)) * (2 : ℚ) ^ (127 : ℤ)) := by
  rw [real_normal (by decide) 0 254 0x7FFFFF rfl rfl rfl, real_normal (by decide) 1 254 0x7FFFFF rfl rfl rfl,
    real_normal (by decide) 0 127 0 rfl rfl rfl]
  refine ⟨?_, ?_, ?_, ?_⟩ <;> norm_num

/-- The smallest and largest accepted delay, and the largest and smallest rejected one. -/
theorem witness_SetDelaySetsOrRejects :
    (InS32 1 ∧ (0 : Int) < 1) ∧ (InS32 (2 ^ 31 - 1) ∧ (0 : Int) < 2 ^ 31 - 1) ∧ (InS32 0 ∧ (0 : Int) ≤ 0) ∧
    (InS32 (-(2 ^ 31)) ∧ -(2 ^ 31 : Int) ≤ 0) := by decide

theorem witness_GetDelayReadsTheDelay : 1 ≤ s32 (idle 2 1).stepDelay ∧ 1 ≤ s32 (idle 2 0x7FFFFFFF).stepDelay := by decide

/-- 2 is the largest accepted method, 3 and 2^32 − 1 the least and largest rejected one. -/
theorem witness_SetMethodSetsOrRejects :
    (2 < 2 ^ 32 ∧ 2 ≤ 2) ∧ (3 < 2 ^ 32 ∧ 2 < 3) ∧ (2 ^ 32 - 1 < 2 ^ 32 ∧ 2 < 2 ^ 32 - 1) := by decide

theorem witness_GetMethodReadsTheMethod : (idle 2 1).driveMethod ≠ 3 := by decide

theorem witness_ReservedOpcodesAnswerIllegalCommand : ∀ v : Word, Instr.reservedF v ∈
    [Instr.reserved0 v, .reservedA v, .reservedB v, .reservedC v, .reservedD v, .reservedE v, .reservedF v] := by simp

theorem witness_LastSetMethodWins : (0 ≤ 2) ∧ (2 ≤ 2) := by decide

theorem witness_FailingCommandsChangeNothingElse :
    ∃ t, exec (.setDelay 0) (idle 2 1) = .next t ∧ t.rspValid = true ∧ t.rspStatus ≠ 0 :=
  ⟨(idle 2 1).answer 1 0, nextOf_eq (by decide), by decide, by decide⟩

/-- An answer with each status. -/
theorem witness_StatusCodesOfTheCommands :
    (∃ t, exec (.getDelay 0) (idle 2 1) = .next t ∧ t.rspValid = true ∧ t.rspStatus = 0) ∧
    (∃ t, exec (.setMethod 3) (idle 2 1) = .next t ∧ t.rspValid = true ∧ t.rspStatus = 1) ∧
    (∃ t, exec (.reserved0 0) (idle 2 1) = .next t ∧ t.rspValid = true ∧ t.rspStatus = 2) :=
  ⟨⟨_, rfl, rfl, rfl⟩, ⟨(idle 2 1).answer 1 0, nextOf_eq (by decide), rfl, rfl⟩, ⟨_, rfl, rfl, rfl⟩⟩

theorem witness_AccessorsHaveNoOtherEffect :
    (∃ t, exec (.setDelay 1) (idle 2 1) = .next t) ∧ (∃ t, exec (.getMethod 0) (idle 2 1) = .next t) :=
  ⟨⟨({ idle 2 1 with stepDelay := 1 } : State).answer 0 0, nextOf_eq (by decide)⟩, ⟨_, rfl⟩⟩

/-- A command without a step count, one with count 0, and one with a count that is not 0. -/
theorem witness_CommandsAnswerAtOnceOrStartARun :
    (idle 2 1).st = .idle ∧ (Instr.getDelay 0).motionSteps 2 = none ∧ (Instr.full 0).motionSteps 2 = some 0 ∧
    ((Instr.full 1).motionSteps 2 = some 4096 ∧ (4096 : Int) ≠ 0) := by decide

/-- The three cases of a run step. -/
theorem witness_RunStepCountsDownWritesOrEnds :
    (running 2 .fwd 5 4 1 5).config.Admissible ∧ 1 ≤ s32 (running 2 .fwd 5 4 1 5).stepDelay ∧
    (running 2 .fwd 5 4 1 5).st = .run ∧ (running 2 .fwd 5 4 1 5).pins.rst = false ∧
    (running 2 .fwd 5 4 1 5).tmr ≠ 0 ∧
    ((running 2 .fwd 1 4 0 5).tmr = 0 ∧ (running 2 .fwd 1 4 0 5).left ≠ 0 ∧
      (running 2 .fwd 1 4 0 5).dir = .fwd ∧ 1 ≤ (running 2 .fwd 1 4 0 5).ctr.toNat) ∧
    ((running 2 .rev 0xFFFFFFFE 4 0 5).tmr = 0 ∧ (running 2 .rev 0xFFFFFFFE 4 0 5).left ≠ 0 ∧
      (running 2 .rev 0xFFFFFFFE 4 0 5).dir = .rev ∧ (running 2 .rev 0xFFFFFFFE 4 0 5).ctr.toNat + 1 < 2 ^ 32) ∧
    ((running 2 .fwd 1 0 0 5).tmr = 0 ∧ (running 2 .fwd 1 0 0 5).left = 0) := by decide

/-- STEP −2 offered at the next edge, and no reset scheduled: the run statements' hypotheses. -/
theorem witness_AcceptsMotion (q : Nat) : AcceptsMotion (-2) q (idle 2 3 [offer 0x1FFFFFFFE]) where
  config_ok := by decide
  delay_pos := by decide
  idle      := rfl
  offered   := rfl
  motion    := by decide
  no_reset  := by
    intro p hp
    have : p = offer 0x1FFFFFFFE := by simpa [Tests.idle] using List.mem_of_mem_take hp
    rw [this]
    rfl

/-- Its first and last edge before the response: 2·3·1 = 6 edges. -/
theorem witness_RunWritesItsRowsOnSchedule :
    (-2 : Int) ≠ 0 ∧ 0 < (-2 : Int).natAbs * (idle 2 3 [offer 0x1FFFFFFFE]).period ∧
    5 < (-2 : Int).natAbs * (idle 2 3 [offer 0x1FFFFFFFE]).period := by decide

/-- A forward run of 5 steps after its first write, D = T = 1: it meets the invariant. -/
theorem witness_run_invariant : (running 0 .fwd 5 4 0 5).coilWrite 4 |>.Inv where
  config_ok    := by decide
  method_legal := by decide
  delay_pos    := by decide
  timer_fits   := by decide
  status_legal := by decide
  coil_legal   := .inr ⟨0, 5, by decide, by decide⟩
  pulse_in_run := fun _ => rfl
  run _        := ⟨⟨by decide, by decide, by decide⟩, by decide, by decide, by decide, by decide⟩

/-- The next edge of that run writes index 4. -/
theorem witness_CounterNeverWraps :
    ((running 0 .fwd 5 4 0 5).coilWrite 4).st = .run ∧ ((running 0 .fwd 5 4 0 5).coilWrite 4).pins.rst = false ∧
    ((running 0 .fwd 5 4 0 5).coilWrite 4).dir = .fwd ∧
    ∃ t, step ((running 0 .fwd 5 4 0 5).coilWrite 4) = .next t ∧ t.st = .run ∧ t.coilWr = true :=
  ⟨rfl, rfl, rfl, ((running 0 .fwd 5 4 0 5).coilWrite 4).runWrite, nextOf_eq (by decide), rfl, rfl⟩

/-- A reverse run of 5 steps after its first write meets it too, and its next edge writes index 1. -/
theorem witness_CounterNeverWraps_reverse :
    ((running 0 .rev 0 4 0 0xFFFFFFFB).coilWrite 8).Inv ∧ ((running 0 .rev 0 4 0 0xFFFFFFFB).coilWrite 8).dir = .rev ∧
    ∃ t, step ((running 0 .rev 0 4 0 0xFFFFFFFB).coilWrite 8) = .next t ∧ t.st = .run ∧ t.coilWr = true :=
  ⟨⟨by decide, by decide, by decide, by decide, by decide, .inr ⟨0, 0, by decide, by decide⟩, fun _ => rfl,
    fun _ => ⟨⟨by decide, by decide⟩, by decide, by decide, by decide, by decide⟩⟩, rfl,
    ((running 0 .rev 0 4 0 0xFFFFFFFB).coilWrite 8).runWrite, nextOf_eq (by decide), rfl, rfl⟩

/-- An edge of that run: the invariant statement's hypotheses. -/
theorem witness_EveryEdgeKeepsTheInvariant :
    ((running 0 .fwd 5 4 0 5).coilWrite 4).Inv ∧ ∃ t, step ((running 0 .fwd 5 4 0 5).coilWrite 4) = .next t :=
  ⟨witness_run_invariant, ((running 0 .fwd 5 4 0 5).coilWrite 4).runWrite, nextOf_eq (by decide)⟩

theorem witness_NoEdgeStopsTheMachine : (running 3 .rev 7 9 4 5).config.Admissible := by decide

/-- An edge with reset, one that accepts SET_METHOD 1, one that accepts SET_DELAY 7, and one in a run: the hypotheses of the
statements about every edge. -/
theorem witness_every_edge :
    (nextOf (step (running 2 .fwd 5 4 0 5 [resetPins]))).isSome = true ∧
    (nextOf (step (idle 2 1 [offer 0x800000001]))).map (·.driveMethod) = some 1 ∧
    (nextOf (step (idle 2 1 [offer 0x600000007]))).map (·.stepDelay) = some 7 ∧
    ((running 2 .fwd 5 4 0 5).pins.rst = false ∧ (running 2 .fwd 5 4 0 5).st = .run ∧
      (nextOf (step (running 2 .fwd 5 4 0 5))).isSome = true) := by decide

theorem witness_IdleEdgeWithoutACommandOnlyEndsThePulses :
    (idle 2 1 [⟨false, false, 5⟩]).config.Admissible ∧ (idle 2 1 [⟨false, false, 5⟩]).st = .idle ∧
    (idle 2 1 [⟨false, false, 5⟩]).pins.rst = false ∧ (idle 2 1 [⟨false, false, 5⟩]).pins.cmdValid = false := by decide

/-- Two idle machines that differ only in their run registers, and one edge. -/
theorem witness_NoPhaseIsCarriedBetweenCommands :
    SameOutside (idle 2 1 [offer 0x100000005]) { idle 2 1 [offer 0x100000005] with ctr := 9, left := 3, tmr := 8 } ∧
    ∃ t, (idle 2 1 [offer 0x100000005]).after 1 = .next t :=
  ⟨⟨⟨rfl, rfl, rfl, rfl⟩, rfl, rfl, rfl, rfl, rfl, rfl, fun h => by cases h⟩,
    (idle 2 1).startRun 5, nextOf_eq (by decide)⟩

end Sys2Proof.Tests
end

/-! # The state (10_state.md): proofs

The rules each operation and each edge keeps, and from them the statements about the registers, the invariant of the
machine and the independence from the last run's registers. -/

namespace Sys2Proof.Machine

/-! ## What single commands and single edges do -/

/-- Every command the port can offer has its operand in range (30_encoding.md R73). -/
theorem decode_wellFormed (w : CommandWord) : (decode w).WellFormed := decodeFields_wellFormed _ _

theorem exec_setDelay_of_pos {ms : Int} (h : 0 < ms) (s : State) :
    exec (.setDelay ms) s = .next (({ s with stepDelay := bits32 ms } : State).answer 0 0) :=
  if_neg (by omega)

theorem exec_setDelay_of_nonpos {ms : Int} (h : ms ≤ 0) (s : State) :
    exec (.setDelay ms) s = .next (s.answer 1 0) :=
  if_pos h

theorem exec_setMethod_of_le {m : Nat} (h : m ≤ 2) (s : State) :
    exec (.setMethod m) s = .next (({ s with driveMethod := BitVec.ofNat 2 m } : State).answer 0 0) :=
  if_neg (by omega)

theorem exec_setMethod_of_gt {m : Nat} (h : 2 < m) (s : State) :
    exec (.setMethod m) s = .next (s.answer 1 0) :=
  if_pos h

theorem exec_of_isReserved {i : Instr} (h : i.isReserved = true) (s : State) :
    exec i s = .next (s.answer 2 0) := by
  cases i <;> cases h <;> rfl

theorem motionSteps_of_isReserved {i : Instr} (h : i.isReserved = true) (m : Method) : i.motionSteps m = none := by
  cases i <;> cases h <;> rfl

/-- An answer stays an answer when its command also sets the method or the delay: `Answers` says nothing of the settings. -/
theorem withSettings_answers (m : Method) (d : Word) (status : Status) (data : Word) (s : State) :
    Answers status data s (({ s with driveMethod := m, stepDelay := d } : State).answer status data) :=
  ⟨rfl, rfl, rfl, rfl, rfl, ⟨rfl, rfl, rfl, rfl, rfl, rfl⟩⟩

/-- The two command classes: a motion command with n ≠ 0 starts a run, and any other answers (30_encoding.md R75). -/
theorem exec_starts_or_answers {i : Instr} {s t : State} (h : exec i s = .next t) :
    (∃ n, i.motionSteps s.driveMethod = some n ∧ n ≠ 0 ∧ t = s.startRun n) ∨
    ((i.motionSteps s.driveMethod = none ∨ i.motionSteps s.driveMethod = some 0) ∧
      ∃ status data, Answers status data s t) := by
  rcases exec_cases h with hrun | ⟨hm, rfl⟩ | ⟨ms, rfl, -, rfl⟩ | ⟨m, rfl, -, rfl⟩ | ⟨v, rfl, rfl⟩ | ⟨v, rfl, rfl⟩ |
    ⟨hbad, rfl⟩ | ⟨hres, rfl⟩
  · exact .inl hrun
  · exact .inr ⟨.inr hm, _, _, answer_answers _ _ _⟩
  · exact .inr ⟨.inl rfl, 0, 0, withSettings_answers s.driveMethod (bits32 ms) 0 0 s⟩
  · exact .inr ⟨.inl rfl, 0, 0, withSettings_answers (BitVec.ofNat 2 m) s.stepDelay 0 0 s⟩
  · exact .inr ⟨.inl rfl, _, _, answer_answers _ _ _⟩
  · exact .inr ⟨.inl rfl, _, _, answer_answers _ _ _⟩
  · refine .inr ⟨.inl ?_, _, _, answer_answers _ _ _⟩
    rcases hbad with ⟨ms, rfl, -⟩ | ⟨m, rfl, -⟩ <;> rfl
  · exact .inr ⟨.inl (motionSteps_of_isReserved hres _), _, _, answer_answers _ _ _⟩

/-- Everything an edge without reset can do: start a run, answer a command, count the timer down, make the run's next
write, end the run, or end the pulses of an idle machine. -/
theorem step_cases_of_no_reset {s t : State} (hrst : s.pins.rst = false) (h : step s = .next t) :
    (s.st = .idle ∧ s.pins.cmdValid = true ∧
      ∃ n, (decode s.pins.cmdWord).motionSteps s.driveMethod = some n ∧ n ≠ 0 ∧ t = s.takePins.startRun n) ∨
    (s.st = .idle ∧ s.pins.cmdValid = true ∧
      ((decode s.pins.cmdWord).motionSteps s.driveMethod = none ∨
        (decode s.pins.cmdWord).motionSteps s.driveMethod = some 0) ∧
      ∃ status data, Answers status data s.takePins t) ∨
    (s.st = .run ∧ s.tmr ≠ 0 ∧ t = { s.takePins.clearPulses with tmr := s.tmr - 1 }) ∨
    (s.st = .run ∧ s.tmr = 0 ∧ s.left ≠ 0 ∧ t = s.takePins.runWrite) ∨
    (s.st = .run ∧ s.tmr = 0 ∧ s.left = 0 ∧ t = s.takePins.endRun) ∨
    (s.st = .idle ∧ s.pins.cmdValid = false ∧ t = s.takePins.clearPulses) := by
  obtain ⟨-, ⟨hr, -⟩ | ⟨-, hv, hi, he⟩ | ⟨-, hrun, rfl⟩ | ⟨-, hv, hi, rfl⟩⟩ := step_cases h
  · rw [hrst] at hr
    cases hr
  · rcases exec_starts_or_answers he with hs | ⟨hm, ha⟩
    · exact .inl ⟨hi, hv, hs⟩
    · exact .inr (.inl ⟨hi, hv, hm, ha⟩)
  · refine .inr (.inr ?_)
    rcases runEdge_cases s.takePins with ⟨ht, e⟩ | ⟨ht, hl, e⟩ | ⟨ht, hl, e⟩
    · exact .inl ⟨hrun, ht, e⟩
    · exact .inr (.inl ⟨hrun, ht, hl, e⟩)
    · exact .inr (.inr (.inl ⟨hrun, ht, hl, e⟩))
  · exact .inr (.inr (.inr (.inr (.inr ⟨hi, hv, rfl⟩))))

/-! ### What a run step leaves unchanged -/

theorem runEdge_settings (s : State) : SameSettings s s.runEdge := by
  rcases runEdge_cases s with ⟨-, e⟩ | ⟨-, -, e⟩ | ⟨-, -, e⟩ <;> rw [e] <;> exact ⟨rfl, rfl, rfl, rfl⟩

@[simp] theorem runEdge_dir (s : State) : s.runEdge.dir = s.dir := by
  rcases runEdge_cases s with ⟨-, e⟩ | ⟨-, -, e⟩ | ⟨-, -, e⟩ <;> rw [e] <;> rfl

@[simp] theorem runEdge_nres (s : State) : s.runEdge.nres = s.nres := by
  rcases runEdge_cases s with ⟨-, e⟩ | ⟨-, -, e⟩ | ⟨-, -, e⟩ <;> rw [e] <;> rfl

/-! ## The settings -/

theorem ofNat_method_toNat {m : Nat} (h : m ≤ 2) : (BitVec.ofNat 2 m : Method).toNat = m := by
  simp only [BitVec.toNat_ofNat]
  omega

theorem ofNat_method_ne_three {m : Nat} (h : m ≤ 2) : (BitVec.ofNat 2 m : Method) ≠ 3 := by
  intro e
  have := ofNat_method_toNat h
  rw [e, show (3 : Method).toNat = 3 from rfl] at this
  omega

/-- A command changes DRIVE_METHOD only if it is a legal SET_METHOD (10_state.md R23). -/
theorem exec_driveMethod {i : Instr} {s t : State} (h : exec i s = .next t) :
    (∃ m, i = .setMethod m ∧ m ≤ 2 ∧ t.driveMethod.toNat = m) ∨ t.driveMethod = s.driveMethod := by
  rcases exec_cases h with ⟨n, -, -, rfl⟩ | ⟨-, rfl⟩ | ⟨ms, -, -, rfl⟩ | ⟨m, rfl, hm, rfl⟩ | ⟨v, -, rfl⟩ | ⟨v, -, rfl⟩ |
    ⟨-, rfl⟩ | ⟨-, rfl⟩
  case inr.inr.inr.inl => exact .inl ⟨m, rfl, hm, ofNat_method_toNat hm⟩
  all_goals exact .inr rfl

/-- A command changes STEP_DELAY only if it is a legal SET_DELAY (10_state.md R24). -/
theorem exec_stepDelay {i : Instr} {s t : State} (hw : i.WellFormed) (h : exec i s = .next t) :
    (∃ ms, i = .setDelay ms ∧ 0 < ms ∧ s32 t.stepDelay = ms) ∨ t.stepDelay = s.stepDelay := by
  rcases exec_cases h with ⟨n, -, -, rfl⟩ | ⟨-, rfl⟩ | ⟨ms, rfl, hms, rfl⟩ | ⟨m, -, -, rfl⟩ | ⟨v, -, rfl⟩ | ⟨v, -, rfl⟩ |
    ⟨-, rfl⟩ | ⟨-, rfl⟩
  case inr.inr.inl => exact .inl ⟨ms, rfl, hms, s32_bits32 (of_decide_eq_true hw)⟩
  all_goals exact .inr rfl

/-! ## The invariant -/

/-- The schedule of pins is no part of the invariant. -/
theorem withPort_inv {s : State} (h : s.Inv) (ps : List Pins) : ({ s with port := ps } : State).Inv :=
  { h with run := fun hs => { h.run hs with } }

theorem resetOf_inv {c : Config} (h : c.Admissible) : (State.resetOf c).Inv := by
  obtain ⟨⟨hd1, hd2⟩, hm, -⟩ := id h
  have hdelay : s32 (State.resetOf c).stepDelay = c.resetDelayMs := s32_ofNat hd2
  exact {
    config_ok    := h
    method_legal := ofNat_method_ne_three hm
    delay_pos    := by omega
    timer_fits   := Nat.two_pow_pos _
    status_legal := (by decide : (0 : Status) ≠ 3)
    coil_legal   := .inl rfl
    pulse_in_run := nofun
    run          := nofun }

theorem resetEdge_inv {s : State} (h : s.config.Admissible) : s.resetEdge.Inv := withPort_inv (resetOf_inv h) s.port

/-- An idle machine keeps its invariant when it takes another legal method and delay. -/
theorem withSettings_inv {s : State} (h : s.Inv) (hs : s.st = .idle) {m : Method} {d : Word} (hm : m ≠ 3)
    (hd : 1 ≤ s32 d) : ({ s with driveMethod := m, stepDelay := d } : State).Inv :=
  { h with method_legal := hm, delay_pos := hd, run := fun hr => by rw [hs] at hr; cases hr }

/-- A command accepted in IDLE keeps the invariant. -/
theorem exec_inv {i : Instr} {s t : State} (hw : i.WellFormed) (hi : s.Inv) (hs : s.st = .idle)
    (h : exec i s = .next t) : t.Inv := by
  rcases exec_cases h with ⟨n, hm, hn, rfl⟩ | ⟨-, rfl⟩ | ⟨ms, rfl, hms, rfl⟩ | ⟨m, -, hm, rfl⟩ | ⟨v, -, rfl⟩ |
    ⟨v, -, rfl⟩ | ⟨-, rfl⟩ | ⟨-, rfl⟩
  · exact startRun_inv hi hn (motionSteps_inS32 hw hm)
  · exact answer_inv hi hs (by decide) _
  · have hd : s32 (bits32 ms) = ms := s32_bits32 (of_decide_eq_true hw)
    exact answer_inv (withSettings_inv hi hs hi.method_legal (d := bits32 ms) (by omega)) hs (by decide) _
  · exact answer_inv (withSettings_inv hi hs (ofNat_method_ne_three hm) hi.delay_pos) hs (by decide) _
  · exact answer_inv hi hs (by decide) _
  · exact answer_inv hi hs (by decide) _
  · exact answer_inv hi hs (by decide) _
  · exact answer_inv hi hs (by decide) _

theorem step_inv {s t : State} (hi : s.Inv) (h : step s = .next t) : t.Inv := by
  have hp := takePins_inv hi
  obtain ⟨hc, ⟨-, rfl⟩ | ⟨-, -, hs, he⟩ | ⟨-, hs, rfl⟩ | ⟨-, -, hs, rfl⟩⟩ := step_cases h
  · exact resetEdge_inv hc
  · exact exec_inv (decode_wellFormed _) hp hs he
  · exact runEdge_inv hp hs
  · exact clearPulses_inv hp hs

/-! ## Two machines that agree outside the run registers of an idle machine -/

theorem SameSettings.refl (s : State) : SameSettings s s := ⟨rfl, rfl, rfl, rfl⟩

theorem SameRun.refl (s : State) : SameRun s s := ⟨rfl, rfl, rfl, rfl, rfl, rfl⟩

theorem SameOutside.refl (s : State) : SameOutside s s :=
  ⟨.refl s, rfl, rfl, rfl, rfl, rfl, rfl, fun _ => .refl s⟩

/-- In a run no register is left out. -/
theorem SameOutside.eq_of_run {s t : State} (h : SameOutside s t) (hs : s.st = .run) : t = s := by
  obtain ⟨⟨hconfig, hport, hmethod, hdelay⟩, hst, hcoil, hwr, hvalid, hstatus, hdata, hrun⟩ := h
  obtain ⟨-, hdir, hctr, hleft, htmr, hnres⟩ := hrun hs
  cases s
  cases t
  simp_all

section SameOutside

variable {s t : State} (h : SameOutside s t)
include h

theorem SameOutside.pins : t.pins = s.pins := by simp [State.pins, h.settings.port]

theorem SameOutside.takePins : SameOutside s.takePins t.takePins :=
  { h with
    settings := { h.settings with port := congrArg List.tail h.settings.port }
    run      := fun hs => { h.run hs with } }

theorem SameOutside.clearPulses : SameOutside s.clearPulses t.clearPulses :=
  { h with
    settings := { h.settings with }
    coilWr   := rfl
    rspValid := rfl
    run      := fun hs => { h.run hs with } }

theorem SameOutside.answer (status : Status) (data : Word) :
    SameOutside (s.answer status data) (t.answer status data) :=
  { h.clearPulses with
    settings  := { h.settings with }
    rspValid  := rfl
    rspStatus := rfl
    rspData   := rfl
    run       := fun hs => { h.run hs with } }

theorem SameOutside.withSettings (m : Method) (d : Word) :
    SameOutside { s with driveMethod := m, stepDelay := d } { t with driveMethod := m, stepDelay := d } :=
  { h with
    settings := { h.settings with driveMethod := rfl, stepDelay := rfl }
    run      := fun hs => { h.run hs with } }

/-- A run's start loads every run register from the settings and the step count (40_motion.md R101). -/
theorem SameOutside.startRun (n : Int) : SameOutside (s.startRun n) (t.startRun n) := by
  have htmr : t.timerLoad = s.timerLoad := by
    simp only [State.timerLoad, h.settings.stepDelay, h.settings.config]
  have hrow : t.rowAt (firstCounter n) = s.rowAt (firstCounter n) := by
    simp only [State.rowAt, h.settings.config, h.settings.driveMethod]
  exact { h.clearPulses with
    settings := { h.settings with }
    st       := rfl
    coil     := hrow
    coilWr   := rfl
    run      := fun _ => ⟨rfl, rfl, rfl, rfl, htmr, rfl⟩ }

theorem SameOutside.resetEdge : SameOutside s.resetEdge t.resetEdge := by
  have e : t.resetEdge = s.resetEdge := by simp only [State.resetEdge, h.settings.config, h.settings.port]
  rw [e]
  exact .refl _

/-- A command keeps the agreement: none reads a run register. -/
theorem SameOutside.exec {i : Instr} {s' : State} (he : Machine.exec i s = .next s') :
    ∃ t', Machine.exec i t = .next t' ∧ SameOutside s' t' := by
  have hm := h.settings.driveMethod
  have hd := h.settings.stepDelay
  rcases exec_cases he with ⟨n, hn, hn0, rfl⟩ | ⟨h0, rfl⟩ | ⟨ms, rfl, hms, rfl⟩ | ⟨m, rfl, hm2, rfl⟩ | ⟨v, rfl, rfl⟩ |
    ⟨v, rfl, rfl⟩ | ⟨⟨ms, rfl, hms⟩ | ⟨m, rfl, hm2⟩, rfl⟩ | ⟨hres, rfl⟩
  · rw [exec_of_motionSteps (hm ▸ hn), motionDispatch_run hn0]
    exact ⟨_, rfl, h.startRun n⟩
  · rw [exec_of_motionSteps (hm ▸ h0), motionDispatch_zero]
    exact ⟨_, rfl, h.answer 0 0⟩
  · refine ⟨_, exec_setDelay_of_pos hms t, ?_⟩
    simpa only [hm] using (h.withSettings s.driveMethod (bits32 ms)).answer 0 0
  · refine ⟨_, exec_setMethod_of_le hm2 t, ?_⟩
    simpa only [hd] using (h.withSettings (BitVec.ofNat 2 m) s.stepDelay).answer 0 0
  · exact ⟨_, rfl, hd ▸ h.answer 0 t.stepDelay⟩
  · exact ⟨_, rfl, hm ▸ h.answer 0 (t.driveMethod.setWidth 32)⟩
  · exact ⟨_, exec_setDelay_of_nonpos hms t, h.answer 1 0⟩
  · exact ⟨_, exec_setMethod_of_gt hm2 t, h.answer 1 0⟩
  · exact ⟨_, exec_of_isReserved hres t, h.answer 2 0⟩

/-- Every edge keeps the agreement: in a run the two machines are one, and an idle edge reads no run register. -/
theorem SameOutside.step {s' : State} (hs : Machine.step s = .next s') :
    ∃ t', Machine.step t = .next t' ∧ SameOutside s' t' := by
  have hp := h.takePins
  have hconfig := h.settings.config
  have hpins := h.pins
  obtain ⟨hc, ⟨hr, rfl⟩ | ⟨hr, hv, hi, he⟩ | ⟨-, hrun, -⟩ | ⟨hr, hv, hi, rfl⟩⟩ := step_cases hs
  · exact ⟨_, step_reset (hconfig ▸ hc) (hpins ▸ hr), hp.resetEdge⟩
  · rw [step_accept (hconfig ▸ hc) (hpins ▸ hr) (hpins ▸ hv) (h.st.trans hi), hpins]
    exact hp.exec he
  · rw [h.eq_of_run hrun]
    exact ⟨s', hs, .refl s'⟩
  · exact ⟨_, step_quiet (hconfig ▸ hc) (hpins ▸ hr) (hpins ▸ hv) (h.st.trans hi), hp.clearPulses⟩

end SameOutside

/-- k + 1 edges are one edge and k more. -/
theorem exists_step_of_after_succ {s u : State} {k : Nat} (h : s.after (k + 1) = .next u) :
    ∃ t, step s = .next t ∧ t.after k = .next u := by
  cases hs : step s with
  | next t => exact ⟨t, rfl, (after_succ hs k).symm.trans h⟩
  | fault r => cases r
  | refused r =>
    simp only [State.after, Host.Core.run, core, hs] at h
    cases h

theorem SameOutside.after {s t s' : State} {k : Nat} (h : SameOutside s t) (hs : s.after k = .next s') :
    ∃ t', t.after k = .next t' ∧ SameOutside s' t' := by
  induction k generalizing s t with
  | zero =>
    cases hs
    exact ⟨t, after_zero t, h⟩
  | succ k ih =>
    obtain ⟨u, hu, hus⟩ := exists_step_of_after_succ hs
    obtain ⟨v, hv, huv⟩ := h.step hu
    rw [after_succ hv]
    exact ih huv hus

/-! ## The statements -/

/-- Settles O41: `step_inv`, from the operations that keep the invariant. -/
theorem everyEdgeKeepsTheInvariant : Obligations.EveryEdgeKeepsTheInvariant :=
  fun _ _ hi h => step_inv hi h

/-- Settles O49, by induction on the number of edges: `SameOutside.step` carries the agreement over each one. -/
theorem noPhaseIsCarriedBetweenCommands : Obligations.NoPhaseIsCarriedBetweenCommands :=
  fun _ _ _ _ h hs => h.after hs

/-- Settles O44: among the commands only a legal SET_METHOD writes the method, and no run step does. -/
theorem onlySetMethodAndResetWriteTheMethod : Obligations.OnlySetMethodAndResetWriteTheMethod := by
  intro s t h
  obtain ⟨⟨-, hm, -⟩, ⟨hr, rfl⟩ | ⟨hr, hv, hi, he⟩ | ⟨hr, -, rfl⟩ | ⟨hr, -, -, rfl⟩⟩ := step_cases h
  · exact .inl ⟨hr, ofNat_method_toNat hm⟩
  · rcases exec_driveMethod he with hset | hsame
    · exact .inr (.inl ⟨hr, hv, hi, hset⟩)
    · exact .inr (.inr ⟨hr, hsame⟩)
  · exact .inr (.inr ⟨hr, (runEdge_settings s.takePins).driveMethod⟩)
  · exact .inr (.inr ⟨hr, rfl⟩)

/-- Settles O45: among the commands only a legal SET_DELAY writes the delay, and no run step does. -/
theorem onlySetDelayAndResetWriteTheDelay : Obligations.OnlySetDelayAndResetWriteTheDelay := by
  intro s t h
  obtain ⟨⟨⟨hd1, hd2⟩, -⟩, ⟨hr, rfl⟩ | ⟨hr, hv, hi, he⟩ | ⟨hr, -, rfl⟩ | ⟨hr, -, -, rfl⟩⟩ := step_cases h
  · have hd : s32 s.takePins.resetEdge.stepDelay = s.config.resetDelayMs := s32_ofNat hd2
    exact .inl ⟨hr, hd, by omega⟩
  · rcases exec_stepDelay (decode_wellFormed _) he with hset | hsame
    · exact .inr (.inl ⟨hr, hv, hi, hset⟩)
    · exact .inr (.inr ⟨hr, hsame⟩)
  · exact .inr (.inr ⟨hr, (runEdge_settings s.takePins).stepDelay⟩)
  · exact .inr (.inr ⟨hr, rfl⟩)

/-- Settles O46: a reset clears coil_wr; of the six other edges the start of a run and its next write set it. -/
theorem coilWritesAreExactlyThePulses : Obligations.CoilWritesAreExactlyThePulses := by
  intro s t h
  cases hr : s.pins.rst with
  | true =>
    obtain ⟨hc, -⟩ := step_cases h
    rw [step_reset hc hr, Host.Outcome.next.injEq] at h
    simp [← h]
  | false =>
    rcases step_cases_of_no_reset hr h with ⟨hi, hv, n, hm, hn, rfl⟩ | ⟨hi, hv, hm, status, data, ha⟩ | ⟨hs, ht, rfl⟩ |
      ⟨hs, ht, hl, rfl⟩ | ⟨hs, ht, hl, rfl⟩ | ⟨hi, hv, rfl⟩
    · simp [hi, hv, hm, hn]
    · rcases hm with hm | hm <;> simp [hi, hm, ha.coilWr, ha.coil]
    · simp [hs, ht]
    · simpa [hs, ht] using hl
    · simp [hs, hl]
    · simp [hi, hv]

/-- Settles O47: of the six edges without reset, an answer and a run's end respond, and both leave the machine idle. -/
theorem responsesComeOncePerCommand : Obligations.ResponsesComeOncePerCommand := by
  intro s t hr h
  rcases step_cases_of_no_reset hr h with ⟨hi, hv, n, hm, hn, rfl⟩ | ⟨hi, hv, hm, status, data, ha⟩ | ⟨hs, ht, rfl⟩ |
    ⟨hs, ht, hl, rfl⟩ | ⟨hs, ht, hl, rfl⟩ | ⟨hi, hv, rfl⟩
  · simp [hi, hv, hm, hn]
  · have hst : t.st = .idle := ha.run.st.trans hi
    rcases hm with hm | hm <;> simp [hi, hv, hm, hst, ha.rspValid]
  · simp [hs, ht]
  · simpa [hs, ht] using hl
  · simp [hs, ht, hl]
  · simp [hi, hv]

/-- Settles O48: an edge in RUN without reset is the run step, whatever the command pins are. -/
theorem noCommandDisturbsARun : Obligations.NoCommandDisturbsARun := by
  intro s t hs hr h
  obtain ⟨hc, -⟩ := step_cases h
  rw [step_run hc hr hs, Host.Outcome.next.injEq] at h
  subst h
  refine ⟨fun v w => step_run (s := { s with port := ⟨false, v, w⟩ :: s.port.tail }) hc rfl hs, ?_⟩
  have hset := runEdge_settings s.takePins
  exact ⟨hset.driveMethod, hset.stepDelay, runEdge_dir _, runEdge_nres _⟩

/-- Settles O10. -/
theorem readyAndBusyDecodeTheState : Obligations.ReadyAndBusyDecodeTheState :=
  fun _ => ⟨fun _ => by simp [cmdReady], by simp [busy]⟩

/-- Settles O42; the model's own configuration is one of the admissible ones. -/
theorem resetMeetsTheInvariant : Obligations.ResetMeetsTheInvariant :=
  ⟨fun _ => resetOf_inv, resetOf_inv (by decide)⟩

/-- Settles O50. -/
theorem idleEdgeWithoutACommandOnlyEndsThePulses : Obligations.IdleEdgeWithoutACommandOnlyEndsThePulses :=
  fun _ hc hi hr hv => step_quiet hc hr hv hi

end Sys2Proof.Machine

/-! # The waveform ROM (20_memory.md): proofs

Which table a read selects, what an admissible configuration says of its rows, and that no edge writes it. -/

namespace Sys2Proof.Machine

/-! ## The table a read selects -/

theorem romRead_waveDrive (c : Config) (i : RowIndex) : romRead c 0 i = c.waveRows[i.toNat]'i.isLt := rfl

theorem romRead_fullStep (c : Config) (i : RowIndex) : romRead c 1 i = c.waveRows[i.toNat]'i.isLt := rfl

theorem romRead_halfStep (c : Config) (i : RowIndex) : romRead c 2 i = c.halfRows[i.toNat]'i.isLt := rfl

/-! ## The rows of an admissible configuration -/

theorem mem_oneHot_of_popcount_eq_one : ∀ r : Row, popcount r = 1 → r ∈ [0x1#4, 0x2#4, 0x4#4, 0x8#4] := by decide

theorem romRead_popcount_of_wave {c : Config} {m : Method} (hc : c.Admissible) (hm : m = 0 ∨ m = 1) (i : RowIndex) :
    popcount (romRead c m i) = 1 := by
  obtain ⟨-, -, -, hwave, -⟩ := hc
  rcases hm with rfl | rfl
  · exact romRead_waveDrive c i ▸ hwave ⟨i.toNat, i.isLt⟩
  · exact romRead_fullStep c i ▸ hwave ⟨i.toNat, i.isLt⟩

/-- Counts of 1 and 2 that differ from row to row alternate: row k has row 0's count when k is even, and the other one
when k is odd. -/
theorem halfRows_popcount_alternates {c : Config} (hc : c.HalfRowsOk) (k : Nat) (hk : k < 8) :
    popcount c.halfRows[k] = if k % 2 = 0 then popcount c.halfRows[0] else 3 - popcount c.halfRows[0] := by
  obtain ⟨hcount, hdiffer⟩ := hc
  induction k with
  | zero => rfl
  | succ k ih =>
    have hprev := ih (by omega)
    have hfirst : popcount c.halfRows[0] = 1 ∨ popcount c.halfRows[0] = 2 := hcount 0
    have hnext : popcount c.halfRows[k + 1] = 1 ∨ popcount c.halfRows[k + 1] = 2 := hcount ⟨k + 1, hk⟩
    have hne : popcount c.halfRows[k] ≠ popcount c.halfRows[k + 1] := hdiffer ⟨k, by omega⟩
    split at hprev <;> split <;> omega

/-- The next row's index has the other parity, from row 7 to row 0 too: the table has an even number of rows. -/
theorem rowIndex_add_one_parity (i : RowIndex) : (i + 1).toNat % 2 = (i.toNat + 1) % 2 := by
  rw [BitVec.toNat_add, show (1 : RowIndex).toNat = 1 from rfl]
  omega

/-! ## The configuration is kept -/

theorem exec_config {i : Instr} {s t : State} (h : exec i s = .next t) : t.config = s.config := by
  rcases exec_cases h with ⟨n, -, -, rfl⟩ | ⟨-, rfl⟩ | ⟨ms, -, -, rfl⟩ | ⟨m, -, -, rfl⟩ | ⟨v, -, rfl⟩ | ⟨v, -, rfl⟩ |
    ⟨-, rfl⟩ | ⟨-, rfl⟩ <;> rfl

theorem step_config {s t : State} (h : step s = .next t) : t.config = s.config := by
  obtain ⟨-, ⟨-, rfl⟩ | ⟨-, -, -, he⟩ | ⟨-, -, rfl⟩ | ⟨-, -, -, rfl⟩⟩ := step_cases h
  · rfl
  · exact (exec_config he).trans s.takePins_config
  · exact (runEdge_settings s.takePins).config
  · rfl

/-! ## The statements -/

/-- Settles O12: R53 of the row read, and only four 4-bit rows have exactly one 1 bit. -/
theorem waveRowsAreOneHot : Obligations.WaveRowsAreOneHot :=
  fun _ _ i hc hm =>
    have hone := romRead_popcount_of_wave hc hm i
    ⟨hone, mem_oneHot_of_popcount_eq_one _ hone⟩

/-- Settles O13: the counts alternate from row 0, and row i + 1 has the other parity, modulo 8 as well. -/
theorem halfRowsAlternateAroundTheTable : Obligations.HalfRowsAlternateAroundTheTable := by
  intro c i hc
  obtain ⟨-, -, -, -, hhalf, -⟩ := hc
  have hfirst : popcount c.halfRows[0] = 1 ∨ popcount c.halfRows[0] = 2 := hhalf.1 0
  have hparity := rowIndex_add_one_parity i
  rw [romRead_halfStep, romRead_halfStep, halfRows_popcount_alternates hhalf i.toNat i.isLt,
    halfRows_popcount_alternates hhalf (i + 1).toNat (i + 1).isLt]
  constructor
  · split <;> omega
  · split <;> split <;> omega

/-- Settles O14: a reset, a command, a run step and an idle edge each keep the configuration, which holds the ROM. -/
theorem noEdgeWritesTheRom : Obligations.NoEdgeWritesTheRom :=
  fun _ _ h => step_config h

/-- Settles O11. -/
theorem romReadSelectsTheTable : Obligations.RomReadSelectsTheTable :=
  fun c i => ⟨romRead_waveDrive c i, romRead_fullStep c i, romRead_halfStep c i⟩

end Sys2Proof.Machine

/-! # The encoding (30_encoding.md): proofs

The decoder and the encoder as inverses, the opcode map by match and mask, which command an edge accepts, and what a
command accepted in IDLE does. -/

namespace Sys2Proof.Machine

/-! ## Encode, then decode -/

theorem u32_ofNat {m : Nat} (h : m < 2 ^ 32) : u32 (BitVec.ofNat 32 m) = m :=
  Nat.mod_eq_of_lt h

/-- The decoder's reading of a command's own opcode and operand bits: each reading of R73 undoes its writing. -/
theorem decodeFields_opcode_argBits {i : Instr} (hw : i.WellFormed) : decodeFields i.opcode i.argBits = i := by
  cases i with
  | step n => exact congrArg Instr.step (s32_bits32 (of_decide_eq_true hw))
  | quarter q => exact congrArg Instr.quarter (s32_bits32 (of_decide_eq_true hw))
  | half h => exact congrArg Instr.half (s32_bits32 (of_decide_eq_true hw))
  | full f => exact congrArg Instr.full (s32_bits32 (of_decide_eq_true hw))
  | angle a => exact congrArg Instr.angle (readBinary32_bits a)
  | setDelay ms => exact congrArg Instr.setDelay (s32_bits32 (of_decide_eq_true hw))
  | setMethod m => exact congrArg Instr.setMethod (u32_ofNat (of_decide_eq_true hw))
  | _ => rfl

/-! ## Decode, then encode -/

/-- No two opcodes read the same command (30_encoding.md R74). -/
theorem opcode_decodeFields (op : Opcode) (arg : Word) : (decodeFields op arg).opcode = op := by
  rcases opcode_cases op with h | h | h | h | h | h | h | h | h | h | h | h | h | h | h | h <;> subst h <;> rfl

/-- No reading of `arg` drops a bit of it (30_encoding.md R73, R77). -/
theorem argBits_decodeFields (op : Opcode) (arg : Word) : (decodeFields op arg).argBits = arg := by
  have hs : bits32 (s32 arg) = arg := bits32_s32 arg
  have hu : BitVec.ofNat 32 (u32 arg) = arg := by simp [u32]
  have hb : (readBinary32 arg).bits = arg := bits_readBinary32 arg
  simp only [decodeFields]
  split <;> simp only [Instr.argBits, hs, hu, hb]

/-! ## The opcode map by match and mask -/

theorem argField_eq_setWidth (w : CommandWord) : argField w = w.setWidth 32 :=
  (BitVec.setWidth_eq_extractLsb' (by decide)).symm

/-- The mask 0xF_00000000 keeps the opcode. -/
theorem opField_and_mask (w : CommandWord) : opField (w &&& 0xF00000000#36) = opField w := by
  have hmask : (0xF00000000#36).extractLsb' 32 4 = BitVec.allOnes 4 := by decide
  simp only [opField, BitVec.extractLsb'_and, hmask, BitVec.and_allOnes]

/-- A word that matches v under the mask is read by v's opcode. -/
theorem decode_of_and_mask_eq {w v : CommandWord} (h : w &&& 0xF00000000#36 = v) :
    decode w = decodeFields (opField v) (w.setWidth 32) := by
  rw [decode, argField_eq_setWidth, ← h, opField_and_mask]

/-! ## The classes of commands -/

/-- The commands that answer status 1 (30_encoding.md R79; `exec_cases` has the case). -/
def RejectsConfiguration (i : Instr) : Prop := (∃ ms, i = .setDelay ms ∧ ms ≤ 0) ∨ ∃ m, i = .setMethod m ∧ 2 < m

@[simp] theorem rejectsConfiguration_setDelay (ms : Int) : RejectsConfiguration (.setDelay ms) ↔ ms ≤ 0 := by
  simp [RejectsConfiguration]

@[simp] theorem rejectsConfiguration_setMethod (m : Nat) : RejectsConfiguration (.setMethod m) ↔ 2 < m := by
  simp [RejectsConfiguration]

@[simp] theorem not_rejectsConfiguration_getDelay (v : Word) : ¬ RejectsConfiguration (.getDelay v) := by
  simp [RejectsConfiguration]

@[simp] theorem not_rejectsConfiguration_getMethod (v : Word) : ¬ RejectsConfiguration (.getMethod v) := by
  simp [RejectsConfiguration]

theorem RejectsConfiguration.isReserved_eq_false {i : Instr} (h : RejectsConfiguration i) : i.isReserved = false := by
  rcases h with ⟨ms, rfl, -⟩ | ⟨m, rfl, -⟩ <;> rfl

theorem RejectsConfiguration.motionSteps_eq_none {i : Instr} (h : RejectsConfiguration i) (m : Method) :
    i.motionSteps m = none := by
  rcases h with ⟨ms, rfl, -⟩ | ⟨k, rfl, -⟩ <;> rfl

theorem motionDispatch_next (n : Int) (s : State) : ∃ t, motionDispatch n s = .next t := by
  by_cases hn : n = 0
  · exact ⟨_, hn ▸ motionDispatch_zero s⟩
  · exact ⟨_, motionDispatch_run hn s⟩

/-- No command stops the machine (60_exceptions.md R170). -/
theorem exec_next (i : Instr) (s : State) : ∃ t, exec i s = .next t := by
  cases i with
  | step n => exact motionDispatch_next _ s
  | quarter q => exact motionDispatch_next _ s
  | half h => exact motionDispatch_next _ s
  | full f => exact motionDispatch_next _ s
  | angle a => exact motionDispatch_next _ s
  | setDelay ms =>
    rcases le_or_gt ms 0 with h | h
    · exact ⟨_, exec_setDelay_of_nonpos h s⟩
    · exact ⟨_, exec_setDelay_of_pos h s⟩
  | setMethod m =>
    rcases le_or_gt m 2 with h | h
    · exact ⟨_, exec_setMethod_of_le h s⟩
    · exact ⟨_, exec_setMethod_of_gt h s⟩
  | _ => exact ⟨_, rfl⟩

/-! ## The command an edge accepts -/

theorem pins_of_port {s : State} {p : Pins} {rest : List Pins} (h : s.port = p :: rest) : s.pins = p := by
  simp [State.pins, h]

theorem takePins_of_port {s : State} {p : Pins} {rest : List Pins} (h : s.port = p :: rest) :
    s.takePins = { s with port := rest } := by
  simp [State.takePins, h]

/-- An edge without an offer reads nothing of cmd_word. -/
theorem edge_of_no_offer (rst : Bool) (w w' : CommandWord) (s : State) :
    edge ⟨rst, false, w⟩ s = edge ⟨rst, false, w'⟩ s := rfl

/-- A command offered to an idle machine is executed (30_encoding.md R71). -/
theorem step_of_offer {s : State} {w : CommandWord} {rest : List Pins} (hc : s.config.Admissible) (hi : s.st = .idle)
    (hp : s.port = ⟨false, true, w⟩ :: rest) : step s = exec (decode w) { s with port := rest } := by
  have hpins := pins_of_port hp
  rw [step_accept hc (by rw [hpins]) (by rw [hpins]) hi, hpins, takePins_of_port hp]

/-- In a run an edge without reset is the run step, with or without an offer. -/
theorem step_of_run {s : State} {v : Bool} {w : CommandWord} {rest : List Pins} (hc : s.config.Admissible)
    (hs : s.st = .run) (hp : s.port = ⟨false, v, w⟩ :: rest) :
    step s = .next ({ s with port := rest } : State).runEdge := by
  rw [step_run hc (by rw [pins_of_port hp]) hs, takePins_of_port hp]

theorem decodeTableWord_of_lt {w : Nat} (h : w < 2 ^ 36) :
    decodeTableWord 36 w = some (decode (BitVec.ofNat 36 w)) := by
  simp only [decodeTableWord, decodeNat, Nat.mod_eq_of_lt h, if_pos h]

/-! ## The statements -/

/-- Settles O1: the decoder reads the two fields of the encoded word, and each operand's reading undoes its writing. -/
theorem decodeOfEncodeIsTheCommand : Obligations.DecodeOfEncodeIsTheCommand :=
  fun i hw => (decode_encode_fields i).trans (decodeFields_opcode_argBits hw)

/-- Settles O2: the decoded command has the word's two fields, and a word is its fields. -/
theorem encodeOfDecodeIsTheWord : Obligations.EncodeOfDecodeIsTheWord := by
  refine fun w => ⟨decode_wellFormed w, ?_⟩
  rw [encode, decode, opcode_decodeFields, argBits_decodeFields, append_fields]

/-- Settles O3: each row of the map is `decode_of_and_mask_eq` at that row's opcode. -/
theorem opcodeMapReadsEveryWord : Obligations.OpcodeMapReadsEveryWord := by
  intro w
  refine ⟨?_, ?_, ?_, ?_, ?_, ?_, ?_, ?_, ?_, ?_, ?_, ?_, ?_, ?_, ?_, ?_⟩ <;> exact fun h => decode_of_and_mask_eq h

/-- Settles O34: of everything a command can do, only a rejection and a reserved opcode answer otherwise than OK, and no
command is of two kinds. -/
theorem statusCodesOfTheCommands : Obligations.StatusCodesOfTheCommands := by
  intro i s t h hv
  change (t.rspStatus = 1 ↔ RejectsConfiguration i) ∧ _
  rcases exec_cases h with ⟨n, -, -, rfl⟩ | ⟨hm, rfl⟩ | ⟨ms, rfl, hms, rfl⟩ | ⟨m, rfl, hm, rfl⟩ | ⟨v, rfl, rfl⟩ |
    ⟨v, rfl, rfl⟩ | ⟨hbad, rfl⟩ | ⟨hres, rfl⟩
  · cases hv
  · have hgood : ¬ RejectsConfiguration i := fun hbad => by
      cases hm.symm.trans (hbad.motionSteps_eq_none _)
    have hres : ¬ i.isReserved = true := fun hres => by
      cases hm.symm.trans (motionSteps_of_isReserved hres _)
    simp [hgood, hres]
  · simp [Instr.isReserved, hms]
  · simp [Instr.isReserved, hm]
  · simp [Instr.isReserved]
  · simp [Instr.isReserved]
  · have hbad : RejectsConfiguration i := hbad
    simp [hbad, hbad.isReserved_eq_false]
  · have hgood : ¬ RejectsConfiguration i := fun hbad => by
      cases hres.symm.trans hbad.isReserved_eq_false
    simp [hgood, hres]

/-- Settles O36: an answer keeps st, and the start of a run sets it. -/
theorem commandsAnswerAtOnceOrStartARun : Obligations.CommandsAnswerAtOnceOrStartARun := by
  intro i s hi
  obtain ⟨t, h⟩ := exec_next i s
  refine ⟨t, h, ?_⟩
  rcases exec_starts_or_answers h with ⟨n, hm, hn, rfl⟩ | ⟨hm, status, data, ha⟩
  · simp [hm, hn, cmdReady]
  · have hst : t.st = .idle := ha.run.st.trans hi
    refine ⟨fun _ => ⟨hst, ha.rspValid, ha.coilWr, by simp [cmdReady, hst]⟩, fun n hn hn0 => ?_⟩
    rcases hm with hm | hm
    · cases hn.symm.trans hm
    · exact absurd (Option.some.inj (hn.symm.trans hm)) hn0

/-- Settles O5: `step_of_offer` for the acceptance; a reset edge and a run's edge take no command. -/
theorem stepExecutesTheAcceptedCommand : Obligations.StepExecutesTheAcceptedCommand := by
  refine fun s w rest hc => ⟨fun hi hp => step_of_offer hc hi hp, fun hs hp => ?_, fun hp => ?_, fun rst hp w' => ?_⟩
  · have hrun := step_of_run hc hs hp
    exact ⟨hrun, hrun.trans (step_of_run (s := { s with port := ⟨false, false, w⟩ :: rest }) hc hs rfl).symm⟩
  · rw [step_reset hc (by rw [pins_of_port hp]), takePins_of_port hp]
  · rw [step_admissible hc, step_admissible (s := { s with port := ⟨rst, false, w'⟩ :: rest }) hc, pins_of_port hp,
      takePins_of_port hp]
    exact edge_of_no_offer rst w w' _

/-- Settles O6: `step_of_offer` at the pins that withFetchWord places. -/
theorem placedWordRunsNext : Obligations.PlacedWordRunsNext := by
  refine fun s w hc hw => ⟨_, decodeTableWord_of_lt hw, rfl, ?_⟩
  refine step_of_offer (s := s.withFetchWord 36 w) (rest := s.port.tail) hc rfl ?_
  simp only [State.withFetchWord, Pins.offer, Nat.mod_eq_of_lt hw]

end Sys2Proof.Machine

/-! # Motion (40_motion.md): proofs

The run step case by case, where a run stands j edges after its acceptance edge, and from that the whole course of a run:
its writes, its response and the bounds of its counter. -/

namespace Sys2Proof.Machine

/-! ## The run step, one equation for each case -/

theorem runEdge_of_tmr_ne_zero {s : State} (ht : s.tmr ≠ 0) : s.runEdge = { s.clearPulses with tmr := s.tmr - 1 } :=
  if_pos ht

theorem runEdge_of_left_ne_zero {s : State} (ht : s.tmr = 0) (hl : s.left ≠ 0) : s.runEdge = s.runWrite := by
  rw [State.runEdge, if_neg (not_not.mpr ht), if_pos hl]

theorem runEdge_of_left_eq_zero {s : State} (ht : s.tmr = 0) (hl : s.left = 0) : s.runEdge = s.endRun := by
  rw [State.runEdge, if_neg (not_not.mpr ht), if_neg (not_not.mpr hl)]

/-- The pins change nothing of what a run writes next. -/
@[simp] theorem State.takePins_nextCounter (s : State) : s.takePins.nextCounter = s.nextCounter := rfl

@[simp] theorem State.takePins_timerLoad (s : State) : s.takePins.timerLoad = s.timerLoad := rfl

/-! ## Time in a run, counted in edges since acceptance -/

theorem period_pos {s : State} (hc : s.config.Admissible) (hd : 1 ≤ s32 s.stepDelay) : 0 < s.period := by
  have := timerLoad_add_one hc hd
  omega

/-- An edge within a period. -/
theorem div_mod_succ_of_lt {j p : Nat} (h : j % p + 1 < p) : (j + 1) / p = j / p ∧ (j + 1) % p = j % p + 1 := by
  rw [Nat.div_mod_unique (by omega)]
  have := Nat.mod_add_div j p
  omega

/-- The edge that begins the next period. -/
theorem div_mod_succ_of_eq {j p : Nat} (h : j % p + 1 = p) : (j + 1) / p = j / p + 1 ∧ (j + 1) % p = 0 := by
  rw [Nat.div_mod_unique (by omega), Nat.mul_add_one]
  have := Nat.mod_add_div j p
  omega

/-- After j + 1 = (k + 1)·p edges, edge j is the last one of period k. -/
theorem succ_eq_succ_mul_iff {j k p : Nat} (hp : 0 < p) : j + 1 = (k + 1) * p ↔ j / p = k ∧ j % p + 1 = p := by
  have hunique := Nat.div_mod_unique (a := j) (d := k) (c := p - 1) hp
  rw [Nat.add_one_mul, Nat.mul_comm k p]
  omega

/-- i edges on, no reset comes while i is within the quiet part of the schedule. -/
theorem pins_rst_of_no_reset {s t : State} {q i : Nat} (h : ∀ p ∈ s.port.take q, p.rst = false)
    (ht : t.port = s.port.drop i) (hi : i < q) : t.pins.rst = false := by
  cases hp : t.port with
  | nil => simp [State.pins, hp, Pins.quiet]
  | cons p rest =>
    rw [pins_of_port hp]
    have hget : s.port[i]? = some p := by rw [← List.head?_drop, ← ht, hp, List.head?_cons]
    exact h p (List.mem_of_getElem? (i := i) (by rw [List.getElem?_take_of_lt hi, hget]))

/-- The row of a run's last write (40_motion.md R114). -/
theorem rowOf_writeCounter_last (n : Int) :
    rowOf (writeCounter n (n.natAbs - 1)) = if 0 < n then 1 else rowOf (n.natAbs - 1) := by
  simp only [writeCounter]
  split
  · rw [show n.natAbs - (n.natAbs - 1) = 1 by omega]
    rfl
  · rfl

/-! ## Where a run stands -/

/-- t is j edges after the acceptance edge of a run of n steps, s being the machine before that edge and the run not yet
over (40_motion.md R102, R105 to R107). -/
structure RunAt (s : State) (n : Int) (j : Nat) (t : State) : Prop where
  settings : SameSettings { s with port := s.port.drop (j + 1) } t
  st       : t.st = .run
  dir      : t.dir = runDirection n
  nres     : s32 t.nres = n
  ctr      : t.ctr.toNat = writeCounter n (j / s.period)
  left     : t.left.toNat + (j / s.period + 1) = n.natAbs
  tmr      : t.tmr + (j % s.period + 1) = s.period
  coil     : t.coil = romRead s.config s.driveMethod (rowOf (writeCounter n (j / s.period)))
  coilWr   : t.coilWr = true ↔ s.period ∣ j
  rspValid : t.rspValid = false

/-- The acceptance edge itself, j = 0 (40_motion.md R101). -/
theorem startRun_runAt {s : State} {n : Int} (hr : InS32 n) (hn : n ≠ 0) (hc : s.config.Admissible)
    (hd : 1 ≤ s32 s.stepDelay) : RunAt s n 0 (s.takePins.startRun n) := by
  have R := startRun_started (s := s.takePins) hr hc hd
  have hload := timerLoad_add_one hc hd
  have hleft := R.left
  refine ⟨⟨rfl, ?_, rfl, rfl⟩, rfl, rfl, R.nres, ?_, ?_, ?_, ?_, by simp, rfl⟩
  · simp
  · simpa using R.ctr
  · rw [Nat.zero_div]
    omega
  · simpa using hload
  · simpa using R.coil

section RunAt

variable {s t : State} {n : Int} {j : Nat} (h : RunAt s n j t)
include h

theorem RunAt.period_eq : t.period = s.period := by
  simp only [State.period, h.settings.stepDelay, h.settings.config]

/-- The next write's counter (40_motion.md R102). -/
theorem RunAt.nextCounter_toNat (hr : InS32 n) (hl : t.left ≠ 0) :
    t.nextCounter.toNat = writeCounter n (j / s.period + 1) := by
  have hctr := h.ctr
  have hleft := h.left
  have hl0 := toNat_ne_zero hl
  have hlt := hr.1
  have hdir := h.dir
  simp only [writeCounter, runDirection] at hctr hdir ⊢
  by_cases hp : 0 < n
  · simp only [hp, if_true] at hctr hdir ⊢
    rw [nextCounter_fwd hdir (by omega)]
    omega
  · simp only [hp, if_false] at hctr hdir ⊢
    rw [nextCounter_rev hdir (by omega)]
    omega

/-- A run's timer and writes left are both down to 0 exactly at the last edge of its full time. -/
theorem RunAt.over_iff (hp : 0 < s.period) : t.tmr = 0 ∧ t.left = 0 ↔ j + 1 = n.natAbs * s.period := by
  have hleft := h.left
  have htmr := h.tmr
  have hl : t.left = 0 ↔ t.left.toNat = 0 := by simp [BitVec.toNat_eq]
  rw [← hleft, ← Nat.add_assoc, succ_eq_succ_mul_iff hp, hl]
  omega

/-- With no write left coil holds the run's last row (40_motion.md R114). -/
theorem RunAt.coil_of_left_eq_zero (hl : t.left = 0) :
    t.coil = romRead s.config s.driveMethod (if 0 < n then 1 else rowOf (n.natAbs - 1)) := by
  have hlast : j / s.period = n.natAbs - 1 := Nat.eq_sub_of_add_eq (by simpa [hl] using h.left)
  rw [h.coil, hlast, rowOf_writeCounter_last]

theorem RunAt.runEdge_settings : SameSettings { s with port := s.port.drop (j + 1 + 1) } t.takePins.runEdge := by
  obtain ⟨hconfig, hport, hmethod, hdelay⟩ := Machine.runEdge_settings t.takePins
  exact ⟨hconfig.trans h.settings.config, by simp [hport, h.settings.port], hmethod.trans h.settings.driveMethod,
    hdelay.trans h.settings.stepDelay⟩

/-- An edge of the run that counts the timer down. -/
theorem RunAt.tick (ht : t.tmr ≠ 0) : RunAt s n (j + 1) t.takePins.runEdge := by
  have hset := h.runEdge_settings
  have htmr := h.tmr
  obtain ⟨hdiv, hmod⟩ := div_mod_succ_of_lt (j := j) (p := s.period) (by omega)
  rw [runEdge_of_tmr_ne_zero (s := t.takePins) ht] at hset ⊢
  refine ⟨hset, h.st, h.dir, h.nres, ?_, ?_, ?_, ?_, ?_, rfl⟩
  · rw [hdiv]
    exact h.ctr
  · rw [hdiv]
    exact h.left
  · change t.tmr - 1 + _ = _
    omega
  · rw [hdiv]
    exact h.coil
  · simp [Nat.dvd_iff_mod_eq_zero, hmod]

/-- An edge of the run that makes the next write. -/
theorem RunAt.write (hr : InS32 n) (hc : s.config.Admissible) (hd : 1 ≤ s32 s.stepDelay) (ht : t.tmr = 0)
    (hl : t.left ≠ 0) : RunAt s n (j + 1) t.takePins.runEdge := by
  have hset := h.runEdge_settings
  have htmr := h.tmr
  have hleft := h.left
  have hl0 := toNat_ne_zero hl
  have hctr := h.nextCounter_toNat hr hl
  have hload : t.timerLoad + 1 = t.period := timerLoad_add_one (h.settings.config ▸ hc) (h.settings.stepDelay ▸ hd)
  obtain ⟨hdiv, hmod⟩ := div_mod_succ_of_eq (j := j) (p := s.period) (by omega)
  rw [runEdge_of_left_ne_zero (s := t.takePins) ht hl] at hset ⊢
  refine ⟨hset, h.st, h.dir, h.nres, ?_, ?_, ?_, ?_, ?_, rfl⟩
  · rw [hdiv]
    exact hctr
  · rw [State.runWrite_left, State.takePins_left, toNat_sub_one hl0, hdiv]
    omega
  · rw [State.runWrite_tmr, State.takePins_timerLoad, hmod, hload, h.period_eq]
  · rw [State.runWrite_coil, rowAt_eq, State.takePins_nextCounter, hctr, hdiv, State.takePins_config,
      State.takePins_driveMethod, h.settings.config, h.settings.driveMethod]
  · simp [Nat.dvd_iff_mod_eq_zero, hmod]

end RunAt

/-! ## The course of a run from its acceptance -/

section AcceptsMotion

variable {s : State} {n : Int} {q : Nat} (h : AcceptsMotion n q s)
include h

theorem AcceptsMotion.inS32 : InS32 n := motionSteps_inS32 (decode_wellFormed _) h.motion

theorem AcceptsMotion.step_startRun (hn : n ≠ 0) : step s = .next (s.takePins.startRun n) := by
  have hrst : s.pins.rst = false := pins_rst_of_no_reset h.no_reset rfl (Nat.succ_pos q)
  rw [step_accept h.config_ok hrst h.offered h.idle, exec_of_motionSteps (s := s.takePins) h.motion,
    motionDispatch_run hn]

/-- An edge of the run is the run step: no reset comes. -/
theorem AcceptsMotion.step_runAt {t : State} {j : Nat} (hj : j < q) (ht : RunAt s n j t) :
    step t = .next t.takePins.runEdge := by
  have hrst : t.pins.rst = false := pins_rst_of_no_reset h.no_reset ht.settings.port (Nat.succ_lt_succ hj)
  exact step_run (ht.settings.config ▸ h.config_ok) hrst ht.st

/-- Every edge before the response is one of the run. -/
theorem AcceptsMotion.runAt (hn : n ≠ 0) {j : Nat} (hq : j ≤ q) (hj : j < n.natAbs * s.period) :
    ∃ t, s.after (j + 1) = .next t ∧ RunAt s n j t := by
  induction j with
  | zero => exact ⟨_, after_succ (h.step_startRun hn) 0, startRun_runAt h.inS32 hn h.config_ok h.delay_pos⟩
  | succ j ih =>
    obtain ⟨t, hafter, ht⟩ := ih (by omega) (by omega)
    have hnext : s.after (j + 1 + 1) = .next t.takePins.runEdge :=
      (after_add hafter 1).trans (after_succ (h.step_runAt hq ht) 0)
    refine ⟨_, hnext, ?_⟩
    by_cases htmr : t.tmr = 0
    · have hnotover := mt (ht.over_iff (period_pos h.config_ok h.delay_pos)).mp hj.ne
      exact ht.write h.inS32 h.config_ok h.delay_pos htmr fun hl => hnotover ⟨htmr, hl⟩
    · exact ht.tick htmr

/-- The edge of the response: no write is left, and the run ends (40_motion.md R104, R105). -/
theorem AcceptsMotion.after_full_time (hn : n ≠ 0) (hq : n.natAbs * s.period ≤ q) :
    ∃ t j, s.after (n.natAbs * s.period + 1) = .next t.takePins.endRun ∧ t.left = 0 ∧ RunAt s n j t := by
  have hp := period_pos h.config_ok h.delay_pos
  obtain ⟨j, hj⟩ := Nat.exists_eq_add_one.mpr (Nat.mul_pos (Int.natAbs_pos.mpr hn) hp)
  obtain ⟨t, hafter, ht⟩ := h.runAt hn (j := j) (by omega) (by omega)
  obtain ⟨htmr, hl⟩ := (ht.over_iff hp).mpr hj.symm
  have hstep := h.step_runAt (by omega) ht
  rw [runEdge_of_left_eq_zero (s := t.takePins) htmr hl] at hstep
  rw [hj]
  exact ⟨t, j, (after_add hafter 1).trans (after_succ hstep 0), hl, ht⟩

end AcceptsMotion

/-! ## The statements -/

/-- Settles O38: `AcceptsMotion.runAt`, by induction on the edges since acceptance, each of them a tick of the timer or a
write. -/
theorem runWritesItsRowsOnSchedule : Obligations.RunWritesItsRowsOnSchedule := by
  intro s n j hn h hj
  obtain ⟨t, hafter, ht⟩ := h.runAt hn le_rfl hj
  have hbusy : busy t = true := by simp [busy, ht.st]
  have hready : cmdReady false t = false := by simp [cmdReady, ht.st]
  exact ⟨t, hafter, ht.coilWr, ht.coil, hbusy, hready, ht.rspValid, ht.settings.driveMethod, ht.settings.stepDelay,
    ht.settings.config⟩

/-- Settles O39: at the last edge before the response no write is left, and the next edge ends the run with its nres. -/
theorem runAnswersAfterItsFullTime : Obligations.RunAnswersAfterItsFullTime := by
  intro s n hn h
  obtain ⟨t, j, hafter, hl, ht⟩ := h.after_full_time hn le_rfl
  exact ⟨_, hafter, rfl, rfl, rfl, rfl, rfl, ht.nres, ht.coil_of_left_eq_zero hl, ht.settings.driveMethod,
    ht.settings.stepDelay, ht.settings.config⟩

/-- Settles O15: `motionDispatch_dispatched`, a well-formed command's step count being in 32 bits. -/
theorem motionCommandsDispatchTheirStepCount : Obligations.MotionCommandsDispatchTheirStepCount := by
  intro i n s hw hc hd hm
  rw [exec_of_motionSteps hm]
  exact motionDispatch_dispatched (motionSteps_inS32 hw hm) hc hd

/-- Settles O37, one equation of the run step for each of its cases. -/
theorem runStepCountsDownWritesOrEnds : Obligations.RunStepCountsDownWritesOrEnds := by
  intro s hc hd hs hr
  rw [step_run hc hr hs]
  refine ⟨fun ht => ?_, fun ht hl => ?_, fun ht hl => ?_⟩
  · rw [runEdge_of_tmr_ne_zero (s := s.takePins) ht]
    exact ⟨_, rfl, rfl, rfl, rfl, rfl, hs, rfl, rfl, rfl, rfl, rfl, rfl, ⟨rfl, rfl, rfl, rfl⟩⟩
  · rw [runEdge_of_left_ne_zero (s := s.takePins) ht hl]
    exact ⟨_, rfl, nextCounter_fwd, nextCounter_rev, toNat_sub_one (toNat_ne_zero hl), rowAt_eq s.takePins _, rfl,
      timerLoad_int hc hd, rfl, hs, rfl, rfl, rfl, rfl, ⟨rfl, rfl, rfl, rfl⟩⟩
  · rw [runEdge_of_left_eq_zero (s := s.takePins) ht hl]
    exact ⟨_, rfl, rfl, rfl, rfl, rfl, rfl, rfl, rfl, rfl, rfl, rfl, rfl, ⟨rfl, rfl, rfl, rfl⟩⟩

/-- Settles O40: of the three run steps only the next write sets coil_wr, and before it the invariant ties the counter to
the writes left, of which there is one at least. -/
theorem counterNeverWraps : Obligations.CounterNeverWraps := by
  intro s t hi hs hr h hrun hwr
  have hcounts := (hi.run hs).counts
  rw [step_run hi.config_ok hr hs, Host.Outcome.next.injEq] at h
  obtain ⟨hl, rfl⟩ : s.left ≠ 0 ∧ t = s.takePins.runWrite := by
    rcases runEdge_cases s.takePins with ⟨-, e⟩ | ⟨-, hl, e⟩ | ⟨-, -, e⟩ <;> obtain rfl := h.symm.trans e
    · cases hwr
    · exact ⟨hl, rfl⟩
    · cases hrun
  have hl0 := toNat_ne_zero hl
  have hn := (s32_range s.nres).1
  simp only [RunCounts] at hcounts
  simp only [State.runWrite_ctr, State.takePins_nextCounter, State.runWrite_nres, State.takePins_nres]
  refine ⟨fun hd => ?_, fun hd => ?_⟩
  · simp only [hd] at hcounts
    have hctr := nextCounter_fwd hd (by omega)
    omega
  · simp only [hd] at hcounts
    have hctr := nextCounter_rev hd (by omega)
    omega

end Sys2Proof.Machine

/-! # The unit converter (41_conversion.md): proofs

The step count of each rotation as one wrapped product, and ANGLE's count as a function of the exact rational product
K·angle. -/

namespace Sys2Proof.Machine

/-! ## The rotations -/

/-- QUARTER of a wrapped number of quarter turns wraps once only: wrap32 is a ring homomorphism (41_conversion.md R134). -/
theorem quarterSteps_wrap32 (m : Method) (x : Int) : quarterSteps m (wrap32 x) = quarterSteps m x :=
  wrap32_mul_wrap32 _ _

/-- FULL f is QUARTER 4f (41_conversion.md R136). -/
theorem fullSteps_eq_quarterSteps (m : Method) (f : Int) : fullSteps m f = quarterSteps m (wrap32 (4 * f)) := by
  rw [quarterSteps_wrap32, fullSteps_eq, quarterSteps]
  congr 1
  ring

/-- Kq is a multiple of 8 (41_conversion.md R143). -/
theorem eight_dvd_kq (m : Method) : 8 ∣ kq m := by
  rw [kq_eq]
  split <;> decide

/-- Wrapping keeps a multiple of 8, because 2^32 is one (41_conversion.md R143). -/
theorem eight_dvd_wrap32 {x : Int} (h : 8 ∣ x) : 8 ∣ wrap32 x :=
  ((wrap32_modEq x).of_dvd (by decide : (8 : Int) ∣ 2 ^ 32)).dvd_iff.mpr h

theorem eight_dvd_quarterSteps (m : Method) (q : Int) : 8 ∣ quarterSteps m q :=
  eight_dvd_wrap32 (Dvd.dvd.mul_right (eight_dvd_kq m) q)

/-! ## Rounding toward zero -/

/-- Truncating before a division toward zero loses nothing (41_conversion.md R142). -/
theorem truncRat_tdiv (p : ℚ) {d : Int} (hd : 0 < d) : (truncRat p).tdiv d = truncRat (p / d) := by
  have hden : (0 : Int) < p.den := by exact_mod_cast p.den_pos
  calc (truncRat p).tdiv d = (truncRat ((p.num : ℚ) / (p.den : Int))).tdiv d := by
        rw [Int.cast_natCast, Rat.num_div_den]
    _ = p.num.tdiv (p.den * d) := by rw [truncRat_intDiv _ hden, tdiv_tdiv_of_pos _ hden]
    _ = truncRat ((p.num : ℚ) / (p.den * d : Int)) := (truncRat_intDiv _ (mul_pos hden hd)).symm
    _ = truncRat (p / d) := by
        rw [Int.cast_mul, Int.cast_natCast, ← div_div, Rat.num_div_den]

/-! ## The product K·angle and its narrowing -/

theorem ka_cast (m : Method) : ((ka m : Int) : ℚ) = if m = 2 then 4096 else 2048 := by
  rw [ka_eq]
  split <;> rfl

/-- The product of a finite angle, before any overflow, is exact in units of 2^−149 (41_conversion.md R140). -/
theorem product_of_finite {a : Binary32} (h : a.exponent ≠ 255) (k : Int) :
    ∃ u : Int, binary32Value a = .finite u ∧ (k : ℚ) * a.real = ((k * u : Int) : ℚ) / 2 ^ 149 := by
  obtain ⟨u, hvalue, hreal⟩ := value_finite h
  refine ⟨u, hvalue, ?_⟩
  rw [hreal, Int.cast_mul, mul_div_assoc]

/-- The largest finite value, in units of 2^−149 (41_conversion.md R140). -/
theorem maxFinite_eq_units :
    (2 - (2 : ℚ) ^ (-23 : ℤ)) * (2 : ℚ) ^ (127 : ℤ) = (maxFiniteUnits : ℚ) / 2 ^ 149 := by
  norm_num [maxFiniteUnits]

/-- A product that overflows saturates as it would in exact arithmetic: f2i does not see the overflow. -/
theorem f2i_scale_finite (k u : Int) : ((F32.finite u).scale k).f2i = (F32.finite (k * u)).f2i := by
  have hmax : (2 : Int) ^ 31 * 2 ^ 149 ≤ maxFiniteUnits := by norm_num [maxFiniteUnits]
  simp only [F32.scale]
  generalize k * u = v
  split
  · simp only [F32.f2i, if_pos (show 2 ^ 31 * 2 ^ 149 ≤ v by omega)]
  · split
    · simp only [F32.f2i, if_neg (show ¬ 2 ^ 31 * 2 ^ 149 ≤ v by omega),
        if_pos (show v ≤ -(2 ^ 31) * 2 ^ 149 by omega)]
    · rfl

/-- f2i of a finite value p saturates at ±2^31 and truncates between (41_conversion.md R140). -/
theorem f2i_finite {v : Int} {p : ℚ} (hp : p = (v : ℚ) / 2 ^ 149) :
    (F32.finite v).f2i =
      if 2 ^ 31 ≤ p then 2 ^ 31 - 1 else if p ≤ -(2 ^ 31) then -(2 ^ 31) else truncRat p := by
  have hge : 2 ^ 31 ≤ p ↔ 2 ^ 31 * 2 ^ 149 ≤ v := by
    rw [hp, le_div_iff₀ (by positivity)]
    exact_mod_cast Iff.rfl
  have hle : p ≤ -(2 ^ 31) ↔ v ≤ -(2 ^ 31) * 2 ^ 149 := by
    rw [hp, div_le_iff₀ (by positivity)]
    exact_mod_cast Iff.rfl
  have htrunc : truncRat p = quot v (2 ^ 149) := by
    rw [hp, quot, ← truncRat_intDiv v (by positivity)]
    norm_num
  simp only [F32.f2i, hge, hle, htrunc]

/-- The ticks of a finite angle, from the exact product K·angle (41_conversion.md R140). -/
theorem angleTicks_of_finite {m : Method} {a : Binary32} {p : ℚ} (h : a.exponent ≠ 255) (hp : p = ka m * a.real) :
    angleTicks m a =
      if 2 ^ 31 ≤ p then 2 ^ 31 - 1 else if p ≤ -(2 ^ 31) then -(2 ^ 31) else truncRat p := by
  obtain ⟨u, hvalue, hprod⟩ := product_of_finite h (ka m)
  rw [angleTicks, hvalue, f2i_scale_finite, f2i_finite (hp.trans hprod)]

theorem angleTicks_of_nan (m : Method) {a : Binary32} (he : a.exponent = 255) (hf : a.fraction ≠ 0) :
    angleTicks m a = 0 := by
  rw [angleTicks, binary32Value, if_pos he, if_neg hf]
  rfl

theorem angleTicks_of_posInf (m : Method) {a : Binary32} (he : a.exponent = 255) (hf : a.fraction = 0)
    (hs : a.sign = 0) : angleTicks m a = 2 ^ 31 - 1 := by
  rw [angleTicks, binary32Value, if_pos he, if_pos hf, hs]
  rfl

theorem angleTicks_of_negInf (m : Method) {a : Binary32} (he : a.exponent = 255) (hf : a.fraction = 0)
    (hs : a.sign = 1) : angleTicks m a = -(2 ^ 31) := by
  rw [angleTicks, binary32Value, if_pos he, if_pos hf, hs]
  rfl

/-- ANGLE's count below saturation: truncate, then divide (41_conversion.md R137, R141). -/
theorem angleSteps_of_between {m : Method} {a : Binary32} {p : ℚ} (h : a.exponent ≠ 255) (hp : p = ka m * a.real)
    (hlo : -(2 ^ 31) < p) (hhi : p < 2 ^ 31) : angleSteps m a = (truncRat p).tdiv 360 := by
  rw [angleSteps, angleTicks_of_finite h hp, if_neg (not_le.mpr hhi), if_neg (not_le.mpr hlo), quot]

/-! ## The statements -/

/-- Settles O16: `quarterSteps` wraps the product Kq·q, and the dispatch is O15's. -/
theorem quarterDispatchesKTimesQ : Obligations.QuarterDispatchesKTimesQ := by
  intro q s hq hc hd
  obtain ⟨t, hexec, hdisp⟩ := motionCommandsDispatchTheirStepCount (.quarter q) _ s (decide_eq_true hq) hc hd rfl
  exact ⟨_, t, quarterSteps_inS32 _ _, quarterSteps_modEq _ _, hexec, hdisp⟩

/-- Settles O17: HALF wraps 2h and is QUARTER of that, and the dispatch is O15's. -/
theorem halfDispatchesKTimesTwoH : Obligations.HalfDispatchesKTimesTwoH := by
  intro h s hh hc hd
  obtain ⟨t, hexec, hdisp⟩ := motionCommandsDispatchTheirStepCount (.half h) _ s (decide_eq_true hh) hc hd rfl
  exact ⟨wrap32 (2 * h), _, t, wrap32_inS32 _, wrap32_modEq _, quarterSteps_inS32 _ _, quarterSteps_modEq _ _, hexec,
    hdisp⟩

/-- Settles O18: FULL wraps 2f and is HALF of that, and the dispatch is O15's. -/
theorem fullDispatchesKTimesFourF : Obligations.FullDispatchesKTimesFourF := by
  intro f s hf hc hd
  obtain ⟨t, hexec, hdisp⟩ := motionCommandsDispatchTheirStepCount (.full f) _ s (decide_eq_true hf) hc hd rfl
  exact ⟨wrap32 (2 * f), wrap32 (2 * wrap32 (2 * f)), _, t, wrap32_inS32 _, wrap32_modEq _, wrap32_inS32 _,
    wrap32_modEq _, quarterSteps_inS32 _ _, quarterSteps_modEq _ _, hexec, hdisp⟩

/-- Settles O19: the commands on each side ask for the same step count, and a motion command is the dispatch of its
count. -/
theorem halfAndFullAreQuarters : Obligations.HalfAndFullAreQuarters := by
  intro x s
  refine ⟨rfl, ?_, rfl⟩
  exact congrArg (motionDispatch · s) (fullSteps_eq_quarterSteps s.driveMethod x)

/-- Settles O20: each count is one wrapped product, and wrap32 keeps exactly what lies in its range. -/
theorem rotationProductsWrapOutsideTheirBounds : Obligations.RotationProductsWrapOutsideTheirBounds := by
  intro m x _ k hk
  rw [← kq_eq] at hk
  rw [quarterSteps, halfSteps_eq, fullSteps_eq, ← hk]
  refine ⟨⟨wrap32_inS32 _, wrap32_modEq _, wrap32_eq_iff.trans ?_⟩,
    ⟨wrap32_inS32 _, wrap32_modEq _, wrap32_eq_iff.trans ?_⟩, wrap32_inS32 _, wrap32_modEq _, wrap32_eq_iff.trans ?_⟩
  all_goals
    rw [hk, kq_eq]
    split <;> omega

/-- Settles O21: HALF and FULL ask for what a QUARTER asks for, a wrapped multiple of Kq. -/
theorem rotationCountsAreMultiplesOfEight : Obligations.RotationCountsAreMultiplesOfEight :=
  fun m _ => ⟨eight_dvd_quarterSteps m _, eight_dvd_quarterSteps m _, eight_dvd_quarterSteps m _⟩

/-- Settles O22: the dispatch is O15's, and each clause is the value of `angleTicks` on its class of angles, divided by
360. -/
theorem angleDispatchesTheTruncatedQuotient : Obligations.AngleDispatchesTheTruncatedQuotient := by
  intro a s hc hd
  obtain ⟨t, hexec, hdisp⟩ := motionCommandsDispatchTheirStepCount (.angle a) _ s rfl hc hd rfl
  refine ⟨_, t, hexec, hdisp, ?_⟩
  rw [← ka_cast]
  intro p
  refine ⟨?nan, ?posInf, ?negInf, ?above, ?below, ?between⟩
  case nan =>
    rintro ⟨he, hf⟩
    rw [angleSteps, angleTicks_of_nan _ he hf]
    rfl
  case posInf =>
    rintro ⟨he, hf, hs⟩
    rw [angleSteps, angleTicks_of_posInf _ he hf hs]
    rfl
  case negInf =>
    rintro ⟨he, hf, hs⟩
    rw [angleSteps, angleTicks_of_negInf _ he hf hs]
    rfl
  case above =>
    rintro ⟨he, hge⟩
    rw [angleSteps, angleTicks_of_finite he rfl, if_pos hge]
    rfl
  case below =>
    rintro ⟨he, hle⟩
    have hlt : ¬ 2 ^ 31 ≤ p := by linarith
    rw [angleSteps, angleTicks_of_finite he rfl, if_neg hlt, if_pos hle]
    rfl
  case between =>
    rintro ⟨he, hlo, hhi⟩
    exact angleSteps_of_between he rfl hlo hhi

/-- Settles O23: `truncRat_tdiv` moves the division inside the truncation. -/
theorem angleCountIsTheExactQuotientTowardZero : Obligations.AngleCountIsTheExactQuotientTowardZero := by
  intro m a he
  rw [← ka_cast]
  intro p hlo hhi
  rw [angleSteps_of_between he rfl hlo hhi, truncRat_tdiv p (by decide), Int.cast_ofNat]

/-- Settles O24: f2i answers in 32 bits, and division by 360 toward zero keeps the order. -/
theorem angleCountIsBounded : Obligations.AngleCountIsBounded := by
  intro m a
  obtain ⟨hlo, hhi⟩ := F32.f2i_range ((binary32Value a).scale (ka m))
  exact ⟨Int.tdiv_le_tdiv (c := 360) (by decide) hlo, Int.tdiv_le_tdiv (c := 360) (by decide) hhi⟩

/-- Settles O25: K·angle and the largest finite value are both whole numbers of units of 2^−149, and the product is
compared there. -/
theorem angleProductIsExactOrInfinite : Obligations.AngleProductIsExactOrInfinite := by
  intro m a he
  obtain ⟨u, hvalue, hprod⟩ := product_of_finite he (ka m)
  rw [← ka_cast, hprod, maxFinite_eq_units, hvalue]
  have hpos : (0 : ℚ) < 2 ^ 149 := by positivity
  have hmax : -maxFiniteUnits ≤ maxFiniteUnits := by decide
  intro p top
  simp only [p, top, ← neg_div, div_lt_div_iff_of_pos_right hpos, div_le_div_iff_of_pos_right hpos, ← Int.cast_neg,
    Int.cast_lt, Int.cast_le, F32.scale]
  refine ⟨fun h => ?_, fun h => ?_, fun ⟨hlo, hhi⟩ => ?_⟩
  · rw [if_pos h]
  · rw [if_neg (by omega), if_pos h]
  · exact ⟨ka m * u, by rw [if_neg (by omega), if_neg (by omega)], rfl⟩

/-- Settles O4: the decoder evaluated at each word. -/
theorem wordsOfTheSpecDecode : Obligations.WordsOfTheSpecDecode := by
  refine ⟨?_, ?_, ?_, ?_, ?_, ?_⟩ <;> decide

end Sys2Proof.Machine

/-! # The configuration commands and the reserved opcodes (42_config.md): proofs

What each accessor answers, and from that the four accessors' effects, their frames and two of their sequences. -/

namespace Sys2Proof.Machine

/-! ## The two GETs -/

theorem exec_getDelay (v : Word) (s : State) : exec (.getDelay v) s = .next (s.answer 0 s.stepDelay) := rfl

theorem exec_getMethod (v : Word) (s : State) :
    exec (.getMethod v) s = .next (s.answer 0 (s.driveMethod.setWidth 32)) := rfl

theorem setWidth_method_toNat (m : Method) : (m.setWidth 32).toNat = m.toNat :=
  BitVec.toNat_setWidth_of_le (by decide)

/-- The only DRIVE_METHOD above 2 is the one that is never held (10_state.md R23). -/
theorem method_toNat_le_two {m : Method} (h : m ≠ 3) : m.toNat ≤ 2 := by
  have hne : m.toNat ≠ 3 := fun e => h (BitVec.eq_of_toNat_eq e)
  omega

/-! ## The statements -/

/-- Settles O26: R150 where ms is positive, and R151 otherwise. -/
theorem setDelaySetsOrRejects : Obligations.SetDelaySetsOrRejects := by
  intro ms s hw
  rcases le_or_gt ms 0 with h | h
  · exact ⟨_, exec_setDelay_of_nonpos h s, fun h' => absurd h' (by omega),
      fun _ => ⟨answer_answers 1 0 s, answer_settings 1 0 s⟩⟩
  · exact ⟨_, exec_setDelay_of_pos h s,
      fun _ => ⟨withSettings_answers s.driveMethod (bits32 ms) 0 0 s, s32_bits32 hw, rfl, rfl, rfl⟩,
      fun h' => absurd h' (by omega)⟩

/-- Settles O28: R153 where m is a method, and R154 otherwise. -/
theorem setMethodSetsOrRejects : Obligations.SetMethodSetsOrRejects := by
  intro m s _
  rcases le_or_gt m 2 with h | h
  · exact ⟨_, exec_setMethod_of_le h s,
      fun _ => ⟨withSettings_answers (BitVec.ofNat 2 m) s.stepDelay 0 0 s, ofNat_method_toNat h, rfl, rfl, rfl⟩,
      fun h' => absurd h' (by omega)⟩
  · exact ⟨_, exec_setMethod_of_gt h s, fun h' => absurd h' (by omega),
      fun _ => ⟨answer_answers 1 0 s, answer_settings 1 0 s⟩⟩

/-- Settles O31: the second SET_METHOD overwrites what the first one stored. -/
theorem lastSetMethodWins : Obligations.LastSetMethodWins :=
  fun _ _ v s ha hb => ⟨_, _, _, exec_setMethod_of_le ha s, exec_setMethod_of_le hb _, exec_getMethod v _, rfl, rfl,
    (setWidth_method_toNat _).trans (ofNat_method_toNat hb)⟩

/-- Settles O32: GET_DELAY reads what SET_DELAY leaves in STEP_DELAY. -/
theorem getDelayReadsTheLastAcceptedDelay : Obligations.GetDelayReadsTheLastAcceptedDelay := by
  intro ms v s hw
  rcases le_or_gt ms 0 with h | h
  · exact ⟨_, _, exec_setDelay_of_nonpos h s, exec_getDelay v _, rfl, rfl, (if_neg h.not_gt).symm⟩
  · exact ⟨_, _, exec_setDelay_of_pos h s, exec_getDelay v _, rfl, rfl, (s32_bits32 hw).trans (if_pos h).symm⟩

/-- Settles O35: each accessor's next state is an `answer` to its command, with the register the command names set. -/
theorem accessorsHaveNoOtherEffect : Obligations.AccessorsHaveNoOtherEffect := by
  refine fun s t ms m v => ⟨fun h => ?_, fun h => ?_, fun h => ?_⟩
  · rcases le_or_gt ms 0 with hms | hms
    · cases (exec_setDelay_of_nonpos hms s).symm.trans h
      rfl
    · cases (exec_setDelay_of_pos hms s).symm.trans h
      rfl
  · rcases le_or_gt m 2 with hm | hm
    · cases (exec_setMethod_of_le hm s).symm.trans h
      rfl
    · cases (exec_setMethod_of_gt hm s).symm.trans h
      rfl
  · rcases h with h | h
    · cases (exec_getDelay v s).symm.trans h
      rfl
    · cases (exec_getMethod v s).symm.trans h
      rfl

/-- Settles O27: the answer is STEP_DELAY itself, and no 32-bit word reads above 2^31 − 1. -/
theorem getDelayReadsTheDelay : Obligations.GetDelayReadsTheDelay := by
  refine fun v s => ⟨_, exec_getDelay v s, answer_answers _ _ s, answer_settings _ _ s, fun hpos => ⟨hpos, ?_⟩⟩
  exact Int.le_sub_one_of_lt (s32_range s.stepDelay).2

/-- Settles O29: zero-extension keeps the method's value, and a legal method is at most 2. -/
theorem getMethodReadsTheMethod : Obligations.GetMethodReadsTheMethod := by
  intro v s
  have hdata : (s.driveMethod.setWidth 32).toNat = s.driveMethod.toNat := setWidth_method_toNat _
  exact ⟨_, exec_getMethod v s, hdata, answer_answers _ _ s, answer_settings _ _ s,
    fun h3 => hdata.trans_le (method_toNat_le_two h3)⟩

/-- Settles O30: every command of the list is a reserved one, and `exec_of_isReserved` has its answer. -/
theorem reservedOpcodesAnswerIllegalCommand : Obligations.ReservedOpcodesAnswerIllegalCommand := by
  intro v s i hi
  have hall : ∀ j ∈ [Instr.reserved0 v, .reservedA v, .reservedB v, .reservedC v, .reservedD v, .reservedE v,
      .reservedF v], j.isReserved = true := by
    simp [Instr.isReserved]
  exact ⟨_, exec_of_isReserved (hall i hi) s, answer_answers 2 0 s, answer_settings 2 0 s⟩

end Sys2Proof.Machine

/-! # Failing commands (60_exceptions.md): proofs

A failing command's next state is an error answer and nothing more; no command and no edge stops the machine. -/

namespace Sys2Proof.Machine

/-- Of everything a command can do, a run's start is no response, and the accepted commands answer OK; what is left answers
an error (60_exceptions.md R170). -/
theorem exec_eq_answer_of_failing {i : Instr} {s t : State} (h : exec i s = .next t) (hv : t.rspValid = true)
    (hst : t.rspStatus ≠ 0) : t = s.answer t.rspStatus 0 := by
  rcases exec_cases h with ⟨n, -, -, rfl⟩ | ⟨-, rfl⟩ | ⟨ms, -, -, rfl⟩ | ⟨m, -, -, rfl⟩ | ⟨v, -, rfl⟩ | ⟨v, -, rfl⟩ |
    ⟨-, rfl⟩ | ⟨-, rfl⟩
  · cases hv
  · exact absurd rfl hst
  · exact absurd rfl hst
  · exact absurd rfl hst
  · exact absurd rfl hst
  · exact absurd rfl hst
  · rfl
  · rfl

/-- Under an admissible configuration every edge gives a next state: the four kinds of edge, of which only an accepted
command's needs `exec_next`. -/
theorem step_next {s : State} (hc : s.config.Admissible) : ∃ t, step s = .next t := by
  cases hr : s.pins.rst with
  | true => exact ⟨_, step_reset hc hr⟩
  | false =>
    cases hs : s.st with
    | run => exact ⟨_, step_run hc hr hs⟩
    | idle =>
      cases hv : s.pins.cmdValid with
      | true => exact step_accept hc hr hv hs ▸ exec_next _ _
      | false => exact ⟨_, step_quiet hc hr hv hs⟩

/-! ## The statements -/

/-- Settles O33: an error answer sets the response registers and clears coil_wr. -/
theorem failingCommandsChangeNothingElse : Obligations.FailingCommandsChangeNothingElse :=
  fun _ _ _ h hv hst => exec_eq_answer_of_failing h hv hst

/-- Settles O43: reset, the run step and the end of the pulses are total, and so is every command. -/
theorem noEdgeStopsTheMachine : Obligations.NoEdgeStopsTheMachine :=
  fun _ hc => step_next hc

end Sys2Proof.Machine

/-! # Reset and hazards (70_reset_and_hazards.md): proofs

What a reset edge leaves and how long it lasts when no command is offered, and R192's conditions in the spec's own words. -/

namespace Sys2Proof.Machine

/-! ## The machine at rest after a reset -/

/-- Nothing is running and nothing shows on the outputs: what a reset leaves and an edge without a command keeps
(70_reset_and_hazards.md R191). -/
structure State.AtRest (s : State) : Prop where
  config_ok : s.config.Admissible
  st        : s.st = .idle
  coil      : s.coil = 0
  coilWr    : s.coilWr = false
  rspValid  : s.rspValid = false

theorem resetEdge_atRest {s : State} (hc : s.config.Admissible) : s.resetEdge.AtRest := ⟨hc, rfl, rfl, rfl, rfl⟩

/-- An edge at which no command is offered is another reset or the end of pulses that are already 0. -/
theorem State.AtRest.step {s : State} (h : s.AtRest) (hv : s.pins.cmdValid = false) :
    ∃ t, Machine.step s = .next t ∧ t.AtRest ∧ t.port = s.port.tail := by
  cases hr : s.pins.rst with
  | true => exact ⟨_, step_reset h.config_ok hr, resetEdge_atRest (s := s.takePins) h.config_ok, rfl⟩
  | false => exact ⟨_, step_quiet h.config_ok hr hv h.st, ⟨h.config_ok, h.st, h.coil, rfl, rfl⟩, rfl⟩

/-- With no command on the schedule's next k + 1 edges there is none at the next edge, and none at the k after it. -/
theorem no_offer_next_and_tail {s : State} {k : Nat} (h : ∀ p ∈ s.port.take (k + 1), p.cmdValid = false) :
    s.pins.cmdValid = false ∧ ∀ p ∈ s.port.tail.take k, p.cmdValid = false := by
  cases hp : s.port with
  | nil => simp [State.pins, hp, Pins.quiet]
  | cons p rest =>
    rw [hp, List.take_succ_cons, List.forall_mem_cons] at h
    exact pins_of_port hp ▸ h

theorem State.AtRest.after {s : State} {k : Nat} (h : s.AtRest) (hv : ∀ p ∈ s.port.take k, p.cmdValid = false) :
    ∃ t, s.after k = .next t ∧ t.AtRest := by
  induction k generalizing s with
  | zero => exact ⟨s, after_zero s, h⟩
  | succ k ih =>
    obtain ⟨hnow, hlater⟩ := no_offer_next_and_tail hv
    obtain ⟨u, hstep, hu, hport⟩ := h.step hnow
    rw [after_succ hstep]
    exact ih hu (hport ▸ hlater)

/-! ## The admissible configurations -/

theorem resetMethod_le_two_iff (c : Config) : c.resetMethod ≤ 2 ↔ c.resetMethod ∈ [0, 1, 2] := by
  simp only [List.mem_cons, List.not_mem_nil, or_false]
  omega

/-- R54 with the neighbours named by the first one's index. -/
theorem halfRowsOk_iff (c : Config) :
    c.HalfRowsOk ↔ (∀ i : Fin 8, popcount c.halfRows[i] ∈ [1, 2]) ∧
      ∀ i : Nat, (h : i < 7) → popcount c.halfRows[i] ≠ popcount c.halfRows[i + 1] :=
  and_congr (forall_congr' fun _ => by simp) Fin.forall_iff

/-- R8's bound on TMR_W with its logarithm. -/
theorem tmrWidthOk_iff_clog (c : Config) :
    c.TmrWidthOk ↔ Nat.clog 2 ((2 ^ 31 - 1) * c.ticksPerMs) ≤ c.tmrWidth :=
  (Nat.clog_le_iff_le_pow (by decide)).symm

/-! ## The statements -/

/-- Settles O8: the reset edge leaves the machine at rest, and by induction on k it stays so while no command is
offered. -/
theorem resetAbortsARun : Obligations.ResetAbortsARun := by
  intro s k hc _ hr hv
  obtain ⟨t, hafter, ht⟩ := (resetEdge_atRest (s := s.takePins) hc).after hv
  exact ⟨t, (after_succ (step_reset hc hr) k).trans hafter, ht.st, ht.coil, ht.coilWr, ht.rspValid⟩

/-- Settles O9: R192's conditions are `Config.Admissible`, under which every edge has a next state and without which every
edge is refused. -/
theorem onlyAdmissibleConfigurationsHaveAMeaning : Obligations.OnlyAdmissibleConfigurationsHaveAMeaning := by
  intro s
  rw [← tmrWidthOk_iff_clog, ← resetMethod_le_two_iff, ← and_assoc (c := s.config.TmrWidthOk), ← halfRowsOk_iff,
    ← and_assoc]
  exact ⟨step_next, step_refused⟩

/-- Settles O7: the two parameters of R40 fit their registers, and the other reset values are written out in
`State.resetOf`. -/
theorem resetEdgeSetsEveryRegister : Obligations.ResetEdgeSetsEveryRegister := by
  intro s hc hr
  obtain ⟨⟨-, hdelay⟩, hmethod, -⟩ := id hc
  exact ⟨_, step_reset hc hr, ofNat_method_toNat hmethod, s32_ofNat hdelay, rfl, rfl, rfl, rfl, rfl, rfl, rfl, rfl, rfl,
    rfl, rfl, rfl, rfl⟩

end Sys2Proof.Machine
